-- ==== Sys2Proof/Word.lean ====
section
/-! DEFINITION. The word types of the block (00_scope.md R5, R6). Bit 0 is the least significant bit. -/

namespace Sys2Proof

/-- A 32-bit command or response word (30_encoding.md R80). -/
abbrev Word32 := BitVec 32

/-- A 16-bit quantity: a FixedPoint16 word, a significand, an address (R5: `W`, `AW`). -/
abbrev Half := BitVec 16

/-- An 8-bit quantity: the timer count, a length, a byte of memory (R5: `TW`, `LW`). -/
abbrev Byte := BitVec 8

/-- A 4-bit quantity: an exponent, a prescaler, a divider select (R5: `EXPW`). -/
abbrev Nibble := BitVec 4

end Sys2Proof
end

