-- ==== Sys2Proof/Config.lean ====
section
/-! DEFINITION. What one implementation of the block fixes (00_scope.md R5), and the free values: constants
without a body, of which nothing in Lean can prove a value. -/

namespace Sys2Proof

/-- The open parameters of R5. State holds them, so that a statement about every state is a statement about
every value of the parameters; no step changes them (10_state.md R34). -/
structure Params where
  /-- `HAS_ASW`: the storage writer U3 is present. -/
  hasAsw : Bool
  /-- `UTHR`: the underflow threshold, any integer in [0,255]. -/
  uthr : Byte
  /-- `PRESC_INIT - 1`, so that its type says the range [1,15] of `PRESC_INIT`. -/
  prescStart : Fin 15
  deriving DecidableEq, Repr

/-- `PRESC_INIT`, an integer in [1,15] (R5, R35). -/
def Params.prescInit (p : Params) : Nibble := BitVec.ofNat 4 (p.prescStart.val + 1)

namespace Config

/-- DESIGN CHOICE (log 2): the underflow threshold is OPEN (R5, D19); safe. -/
opaque uthr : Byte

/-- DESIGN CHOICE (log 3): `PRESC_INIT - 1`; `PRESC_INIT` is OPEN in [1,15] (R5, D19); safe. -/
opaque prescStart : Fin 15

/-- DESIGN CHOICE (log 4): the free value of width `w` of draw number `k`, for what R35 leaves "unspecified"
after reset. -/
opaque freeBits : (w : Nat) → Nat → BitVec w

/-- DESIGN CHOICE (log 12): the byte the source space holds at an address the host has never put a byte at
(20_memory.md R61: "whatever the host last put there"); safe. -/
opaque srcUnwritten : Half → Byte

/-- The parameters of the block at `Machine.State.reset`. DESIGN CHOICE (log 1): U3 is present. -/
def params : Params := { hasAsw := true, uthr := uthr, prescStart := prescStart }

/-- `NMAX`: the bound on restoring-division iterations (R5, D7). -/
def nmax : Nat := 32

/-- `FP_MAX`: the maximum representable value at exponent 15 (R5). -/
def fpMax : Half := 0xFFFF

/-- `SAMPLE_OVF`: the sample CGET returns on overflow (R5). -/
def sampleOvf : Half := 0xFFFF

/-- `RAW_MAX`: the maximum countable value (R5). -/
def rawMax : Byte := 0xFF

/-- `SIG_MASK` (R5, D1). -/
def sigMask : Half := 0xFFF0

/-- `EXP_MASK` (R5, D1). -/
def expMask : Half := 0x000F

end Config

end Sys2Proof
end

