-- ==== Sys2Proof/Syntax.lean ====
section
/-! DEFINITION. The commands of the block, one constructor for each row of spec/opcode_table.json
(30_encoding.md R85). The operands are those R88 takes from the packet; bits R86 says are ignored are not part
of a command. A signed operand is an integer (R88: `sext_8`), whose range WellFormed.lean checks. -/

namespace Sys2Proof

/-- A command of the host, the analogue of an instruction (00_scope.md section 6). -/
inductive Instr where
  /-- COMPOSE (40_fixedpoint.md R110): a significand and an exponent. -/
  | compose (significand : Half) (exponent : Nibble)
  /-- EXSIG (R111): a FixedPoint16 word. -/
  | exsig (w : Half)
  /-- EXEXP (R112): a FixedPoint16 word. -/
  | exexp (w : Half)
  /-- NORM (R114): a raw significand and a signed exponent. -/
  | norm (rawSignificand : Half) (signedExponent : Int)
  /-- INV (41_reciprocal.md R140): a FixedPoint16 word and a signed extra shift. -/
  | inv (f : Half) (extraShift : Int)
  /-- TOI16 (R116): a FixedPoint16 word. -/
  | toi16 (w : Half)
  /-- TOI32 (R117): a FixedPoint16 word. -/
  | toi32 (w : Half)
  /-- CRESET (42_capture.md R161): the mode bit. -/
  | creset (mode : Bool)
  /-- CSTART (R162): the prescaler; 0 is a command too, answered ILLEGAL. -/
  | cstart (prescaler : Nibble)
  /-- CGET (R170, R171, R172). -/
  | cget
  /-- CSTAT (R173). -/
  | cstat
  /-- SWRITE (43_storage_writer.md R201): source address, destination offset, length. -/
  | swrite (source destination : Half) (length : Byte)
  /-- SDONE (R202). -/
  | sdone
  deriving DecidableEq, Repr

end Sys2Proof
end

