-- ==== Sys2Proof/Decode.lean ====
section
/-! DEFINITION. From command words to commands and back (30_encoding.md R81 to R88). Decoding is total on any
list of words and rejects by name; the encoder writes every ignored bit as zero (R86: "Software should write
them as zero"). -/

namespace Sys2Proof

/-- `op`, bits 31:24 of word 0 (R81). -/
def opField (w : Word32) : Byte := w.extractLsb' 24 8

/-- `b`, bits 23:16 of word 0 (R81). -/
def bField (w : Word32) : Byte := w.extractLsb' 16 8

/-- `a`, bits 15:0 of word 0 (R81). -/
def aField (w : Word32) : Half := w.extractLsb' 0 16

/-- `c`, bits 15:0 of word 1 (R82). -/
def cField (w : Word32) : Half := w.extractLsb' 0 16

/-- The rows of the opcode map (R85). -/
inductive Opcode where
  | compose | exsig | exexp | norm | inv | toi16 | toi32 | creset | cstart | cget | cstat | swrite | sdone
  deriving DecidableEq, Repr

/-- The rows in the table's order. -/
def Opcode.all : List Opcode :=
  [.compose, .exsig, .exexp, .norm, .inv, .toi16, .toi32, .creset, .cstart, .cget, .cstat, .swrite, .sdone]

/-- The value of `op` of each row (R85; mask 0xFF000000 for every row). -/
def Opcode.code : Opcode → Byte
  | .compose => 0x01
  | .exsig => 0x02
  | .exexp => 0x03
  | .norm => 0x04
  | .inv => 0x05
  | .toi16 => 0x06
  | .toi32 => 0x07
  | .creset => 0x10
  | .cstart => 0x11
  | .cget => 0x12
  | .cstat => 0x13
  | .swrite => 0x20
  | .sdone => 0x21

/-- The rows that "exist only when `HAS_ASW` is true" (R85). -/
def Opcode.needsAsw : Opcode → Bool
  | .swrite => true
  | .sdone => true
  | _ => false

/-- The row that a value of `op` selects, if there is one (R85, R87). -/
def Opcode.ofCode (hasAsw : Bool) (c : Byte) : Option Opcode :=
  Opcode.all.find? fun o => (hasAsw || !o.needsAsw) && (o.code == c)

/-- How many words a command has, from its first word (R83). -/
def commandLength (hasAsw : Bool) (w0 : Word32) : Nat :=
  if hasAsw && (opField w0 == Opcode.swrite.code) then 2 else 1

/-- Why a list of words is no command. -/
inductive DecodeError where
  /-- `op` has no row in R85 (R87). -/
  | undefinedOpcode (op : Byte)
  /-- There is no word, or word 1 of a C64 command is missing. -/
  | incomplete
  deriving DecidableEq, Repr

/-- A command and the words after it, or the reason there is none. -/
inductive DecodeResult where
  | ok (i : Instr) (rest : List Word32)
  | refused (e : DecodeError)
  deriving DecidableEq, Repr

/-- The operands of R88, taken from word 0 and, for C64, from the word after it. -/
def decodeOperands (o : Opcode) (w : Word32) (rest : List Word32) : DecodeResult :=
  match o with
  | .compose => .ok (.compose (aField w) ((bField w).extractLsb' 0 4)) rest
  | .exsig => .ok (.exsig (aField w)) rest
  | .exexp => .ok (.exexp (aField w)) rest
  | .norm => .ok (.norm (aField w) (bField w).toInt) rest
  | .inv => .ok (.inv (aField w) (bField w).toInt) rest
  | .toi16 => .ok (.toi16 (aField w)) rest
  | .toi32 => .ok (.toi32 (aField w)) rest
  | .creset => .ok (.creset ((bField w).getLsbD 0)) rest
  | .cstart => .ok (.cstart ((bField w).extractLsb' 0 4)) rest
  | .cget => .ok .cget rest
  | .cstat => .ok .cstat rest
  | .sdone => .ok .sdone rest
  | .swrite =>
    match rest with
    | [] => .refused .incomplete
    | w1 :: rest' => .ok (.swrite (aField w) (cField w1) (bField w)) rest'

/-- The first command of a list of words, of a block whose `HAS_ASW` is `hasAsw` (R83, R85, R87). -/
def decode (hasAsw : Bool) (ws : List Word32) : DecodeResult :=
  match ws with
  | [] => .refused .incomplete
  | w :: rest =>
    match Opcode.ofCode hasAsw (opField w) with
    | none => .refused (.undefinedOpcode (opField w))
    | some o => decodeOperands o w rest

/-- `{op, b, a}` (R81). -/
def packC32 (o : Opcode) (b : Byte) (a : Half) : Word32 := o.code ++ b ++ a

/-- The words of a command, in the packet forms of R89. -/
def encode : Instr → List Word32
  | .compose sig e => [packC32 .compose (e.setWidth 8) sig]
  | .exsig w => [packC32 .exsig 0 w]
  | .exexp w => [packC32 .exexp 0 w]
  | .norm sig e => [packC32 .norm (BitVec.ofInt 8 e) sig]
  | .inv f x => [packC32 .inv (BitVec.ofInt 8 x) f]
  | .toi16 w => [packC32 .toi16 0 w]
  | .toi32 w => [packC32 .toi32 0 w]
  | .creset m => [packC32 .creset ((BitVec.ofBool m).setWidth 8) 0]
  | .cstart p => [packC32 .cstart (p.setWidth 8) 0]
  | .cget => [packC32 .cget 0 0]
  | .cstat => [packC32 .cstat 0 0]
  | .swrite src dst len => [packC32 .swrite len src, dst.setWidth 32]
  | .sdone => [packC32 .sdone 0 0]

/-- Word 0 and word 1 of the instruction whose bits are `w`, all bits from `nbits` up being zero. -/
def tableWords (nbits w : Nat) : Word32 × Word32 :=
  (BitVec.ofNat 32 (w % 2 ^ nbits), BitVec.ofNat 32 (w % 2 ^ nbits / 2 ^ 32))

/-- The command the decoder of a block with U3 reads from an instruction whose bits are `w`. -/
def decodeTableWord (nbits w : Nat) : Option Instr :=
  match decode true [(tableWords nbits w).1, (tableWords nbits w).2] with
  | .ok i _ => some i
  | .refused _ => none

end Sys2Proof
end

