-- ==== Sys2Proof/Machine/State.lean ====
section
/-! DEFINITION. The state of the block: every element of 10_state.md R20, the two address spaces (20_memory.md
R60), what the ports hold (30_encoding.md R80, R82, R84), and the model's own schedule and draw counter.
Plain data throughout. -/

namespace Sys2Proof.Machine

/-- `CSTATE` (10_state.md R23): codes 5, 6, 7 do not exist. -/
inductive CState where
  | idle | ready | sampling | complete | completeOverflow
  deriving DecidableEq, Repr

/-- `EDGE` (R29): 0 is falling, 1 is rising. -/
inductive Edge where
  | falling | rising
  deriving DecidableEq, Repr

/-- The working registers of the restoring division of U1 (R31). -/
structure InvRegs where
  /-- `INV.D`, the divisor. -/
  d : BitVec 17
  /-- `INV.REM`, the partial remainder. -/
  rem : BitVec 17
  /-- `INV.Q`, the accumulating quotient. -/
  q : BitVec 12
  /-- `INV.N`, the iteration count. -/
  n : BitVec 6
  deriving DecidableEq, Repr

/-- The registers of the capture unit U2 (R20, R23 to R30). -/
structure CaptureRegs where
  cstate : CState
  presc : Nibble
  raw : Byte
  tcnt : Byte
  tdiv : Nibble
  cie : Bool
  mode : Bool
  edge : Edge
  senseOe : Bool
  senseLvl : Bool
  gpend : Bool
  gpUsed : Nibble
  deriving DecidableEq, Repr

/-- The registers of the storage writer U3 (R20, R32); inert when `HAS_ASW` is false (log 18). -/
structure StorageRegs where
  src : Half
  dst : Half
  len : Byte
  rem : Byte
  busy : Bool
  rie : Bool
  deriving DecidableEq, Repr

/-- An address space of single bytes, as the list of the bytes put there (20_memory.md R60). -/
abbrev Memory := List Host.Cell

/-- The canonical form: addresses strictly rising, each an address of 16 bits. An unlisted address reads as no
value (log 12), so no entry can equal what an unlisted address reads as. -/
abbrev Memory.wf (m : Memory) : Prop :=
  m.Pairwise (fun x y => x.1 < y.1) ∧ ∀ c ∈ m, c.1 < 65536

/-- One `NvmWrite` event (20_memory.md R62). -/
structure NvmWrite where
  off : Half
  byte : Byte
  deriving DecidableEq, Repr

/-- The status of a response (30_encoding.md R84); code 3 is never produced. -/
inductive Status where
  | ok | busy | illegal
  deriving DecidableEq, Repr

/-- A response: a status and a 32-bit word (R84). -/
structure Response where
  status : Status
  value : Word32
  deriving DecidableEq, Repr

/-- What happens next: which agent of 00_scope.md R9 takes a step, and with what. DESIGN CHOICE (log 5): safe,
every interleaving is some list of moves. -/
inductive Move where
  /-- The host presents a command word on the command port (30_encoding.md R80). -/
  | word (w : Word32)
  /-- The capture sequencer's turn: the completion step of CGET, if it is enabled (42_capture.md R171). -/
  | sequencer
  /-- A pulse on `cmp_trip` (R176). -/
  | cmp
  /-- A pulse on `tmr_tick` (R178). -/
  | tick
  /-- A pulse on `nvm_ready` (43_storage_writer.md R206). -/
  | srdy
  /-- The host puts a byte into the source space (20_memory.md R61). -/
  | sourcePut (addr : Half) (byte : Byte)
  /-- `rst` becomes asserted (70_reset_and_hazards.md R260). -/
  | assertReset
  /-- `rst` becomes released (R260). -/
  | releaseReset
  deriving DecidableEq, Repr

/-- The state of the block and of its ports. -/
structure State where
  /-- The open parameters (00_scope.md R5); no step writes them. -/
  params : Params
  /-- U1. -/
  inv : InvRegs
  /-- U2. -/
  cap : CaptureRegs
  /-- U3. -/
  asw : StorageRegs
  /-- `SRCMEM`. -/
  srcMem : Memory
  /-- `NVM`. -/
  nvm : Memory
  /-- The `NvmWrite` events so far, newest first (20_memory.md R62). -/
  nvmLog : List NvmWrite
  /-- Word 0 of a two-word command whose word 1 has not come yet (30_encoding.md R82). DEDUCED (log 7). -/
  held : Option Word32
  /-- The level of the input `rst` (70_reset_and_hazards.md R260). -/
  rst : Bool
  /-- The responses given, newest first (30_encoding.md R84; log 10). -/
  responses : List Response
  /-- The model's schedule: what happens next, first move first (log 5). -/
  moves : List Move
  /-- The model's count of the free values drawn (log 4). -/
  draws : Nat
  deriving DecidableEq, Repr

/-- There is no fault: "The block raises no synchronous exception" (60_exceptions.md R230). -/
inductive Fault
  deriving DecidableEq, Repr

/-- Why a step has no meaning. -/
inductive Refusal where
  /-- Raised by `exec` for a command that has no meaning yet (none is left); safe. -/
  | notModelled (mnemonic : String)
  /-- Raised by the command port when a word is presented while `cmd_ready = 0`, which 44_host.md R224 assumes
  never: "something the model gives no move for" (log 8); safe. -/
  | commandWhileNotReady
  deriving DecidableEq, Repr

/-- The values of the elements that 10_state.md R35 leaves unspecified after reset. -/
structure Unspecified where
  raw : Byte
  gpUsed : Nibble
  inv : InvRegs
  src : Half
  dst : Half
  len : Byte
  rem : Byte
  deriving DecidableEq, Repr

/-- How many free values one reset draws (log 4). -/
def drawsPerReset : Nat := 10

/-- The free values of the draws `k` to `k + 9` (log 4). -/
def Unspecified.draw (k : Nat) : Unspecified where
  raw := Config.freeBits 8 k
  gpUsed := Config.freeBits 4 (k + 1)
  inv :=
    { d := Config.freeBits 17 (k + 2), rem := Config.freeBits 17 (k + 3),
      q := Config.freeBits 12 (k + 4), n := Config.freeBits 6 (k + 5) }
  src := Config.freeBits 16 (k + 6)
  dst := Config.freeBits 16 (k + 7)
  len := Config.freeBits 8 (k + 8)
  rem := Config.freeBits 8 (k + 9)

/-- The capture unit after hardware reset (R35). -/
def CaptureRegs.afterReset (p : Params) (u : Unspecified) : CaptureRegs where
  cstate := .idle
  presc := p.prescInit
  raw := u.raw
  tcnt := 0
  tdiv := 0
  cie := false
  mode := false
  edge := .falling
  senseOe := false
  senseLvl := false
  gpend := false
  gpUsed := u.gpUsed

/-- The storage writer after hardware reset (R35). -/
def StorageRegs.afterReset (u : Unspecified) : StorageRegs where
  src := u.src
  dst := u.dst
  len := u.len
  rem := u.rem
  busy := false
  rie := false

/-- The block right after reset, for any parameters and any values of what R35 leaves unspecified: `rst`
released, nothing given, nothing put in either space, nothing scheduled. -/
def State.resetWith (p : Params) (u : Unspecified) : State where
  params := p
  inv := u.inv
  cap := CaptureRegs.afterReset p u
  asw := StorageRegs.afterReset u
  srcMem := []
  nvm := []
  nvmLog := []
  held := none
  rst := false
  responses := []
  moves := []
  draws := drawsPerReset

/-- The machine right after reset (R35, R260), with the parameters of Config and the first ten free values. -/
def State.reset : State := State.resetWith Config.params (Unspecified.draw 0)

end Sys2Proof.Machine
end

