-- ==== Sys2Proof/Machine/Flags.lean ====
section
/-! DEFINITION. The flags and output signals. There are no condition codes: "The only flags are `BUSY` (rule
R32) and the response status" (10_state.md R33). Every output but the response port is a function of state
(10_state.md R36). -/

namespace Sys2Proof.Machine

/-- `rsp_status` (30_encoding.md R84). -/
def Status.code : Status → BitVec 2
  | .ok => 0
  | .busy => 1
  | .illegal => 2

/-- A capture is being timed: the staleness guard of both handlers (00_scope.md section 6). -/
def isSampling (s : State) : Bool := s.cap.cstate == .sampling

/-- `TRUN`: `TDIV != 0` (10_state.md R20). -/
def timerRuns (s : State) : Bool := s.cap.tdiv != 0

/-- `cmd_ready`: "`GPEND = 0` and not in reset" (R36). -/
def cmdReady (s : State) : Bool := !s.cap.gpend && !s.rst

/-- `idle`: "`GPEND = 1` and `CSTATE = Sampling`" (R36, 60_exceptions.md R243). -/
def idleOut (s : State) : Bool := s.cap.gpend && isSampling s

/-- `sense_oe` (R36). -/
def senseOeOut (s : State) : Bool := s.cap.senseOe

/-- `sense_lvl` (R36), meaningful when `sense_oe = 1`. -/
def senseLvlOut (s : State) : Bool := s.cap.senseLvl

/-- `cmp_edge_sel` (R36). -/
def cmpEdgeSelOut (s : State) : Bool := s.cap.edge == .rising

/-- `cmp_ie` (R36). -/
def cmpIeOut (s : State) : Bool := s.cap.cie

/-- `tmr_run` (R36). -/
def tmrRunOut (s : State) : Bool := timerRuns s

/-- `tmr_div` (R36). -/
def tmrDivOut (s : State) : Nibble := s.cap.tdiv

/-- `nvm_rie` (R36: "only when `HAS_ASW`"), the enable of SRDY (43_storage_writer.md R206; log 18). -/
def nvmRieOut (s : State) : Bool := s.params.hasAsw && s.asw.rie

end Sys2Proof.Machine
end

