-- ==== Sys2Proof/Machine/Operands.lean ====
section
/-! DEFINITION. The operand and result forms of the commands: the FixedPoint16 word (10_state.md R21), the
response word (30_encoding.md R84) and the status word of CSTAT (42_capture.md R173). How an operand is taken
from the packet (R88) is in Decode.lean. -/

namespace Sys2Proof.Machine

/-- `sig(w) = w & 0xFFF0`, the field in place (R21). -/
def sig (w : Half) : Half := w &&& Config.sigMask

/-- `exp(w) = w & 0x000F` (R21). -/
def expo (w : Half) : Half := w &&& Config.expMask

/-- `val(w) = sig(w) * 2^exp(w)` (00_scope.md R8). -/
def fpVal (w : Half) : Nat := (sig w).toNat * 2 ^ (expo w).toNat

/-- Masks and packs (40_fixedpoint.md R110): significand bits 3 to 0 are dropped. -/
def pack (s : Half) (e : Nibble) : Half := (s &&& Config.sigMask) ||| e.setWidth 16

/-- `zext_32` of a 16-bit result (R84: the bits above are zero). -/
def zext32 (v : Half) : Word32 := v.setWidth 32

/-- The code of `CSTATE` (10_state.md R23). -/
def CState.code : CState → BitVec 3
  | .idle => 0
  | .ready => 1
  | .sampling => 2
  | .complete => 3
  | .completeOverflow => 4

/-- `{TCNT, SENSE_LVL, SENSE_OE, MODE, CIE, TDIV, RAW, PRESC, 0, CSTATE}` (42_capture.md R173). -/
def statusWord (c : CaptureRegs) : Word32 :=
  c.tcnt ++ BitVec.ofBool c.senseLvl ++ BitVec.ofBool c.senseOe ++ BitVec.ofBool c.mode ++ BitVec.ofBool c.cie
    ++ c.tdiv ++ c.raw ++ c.presc ++ (0 : BitVec 1) ++ CState.code c.cstate

end Sys2Proof.Machine
end

