-- ==== Sys2Proof/Machine/Ops.lean ====
section
/-! DEFINITION. The operations the meanings share: answering a command, the two address spaces, beginning a
capture, stopping the timer, and hardware reset. The block takes no exception (60_exceptions.md R230, R236): what
stands in its place is the answer ILLEGAL (R232) and the atomic handlers of the three events. -/

namespace Sys2Proof.Machine

/-- `respond(status, value)` of 00_scope.md R7: the response of the command that ends here (30_encoding.md R84). -/
def respond (st : Status) (v : Word32) (s : State) : State :=
  { s with responses := { status := st, value := v } :: s.responses }

/-- The answer to an undefined opcode and to CSTART with prescaler 0: status ILLEGAL, word zero, no state change
(R87, 60_exceptions.md R232). -/
def answerIllegal (s : State) : State := respond .illegal 0 s

/-- The byte an address space holds at an address; `none` where no byte has been put. -/
def readByte (m : Memory) (a : Nat) : Option Byte :=
  match m with
  | [] => none
  | (k, b) :: rest => if a = k then some b else readByte rest a

/-- Put one byte, keeping the canonical form. -/
def writeByte (m : Memory) (a : Nat) (b : Byte) : Memory :=
  match m with
  | [] => [(a, b)]
  | (k, c) :: rest =>
    if a < k then (a, b) :: (k, c) :: rest
    else if a = k then (a, b) :: rest
    else (k, c) :: writeByte rest a b

/-- `SrcRead(addr)` (20_memory.md R61): no side effect; where the host has put no byte, a free value (log 12). -/
def srcRead (addr : Half) (s : State) : Byte :=
  (readByte s.srcMem addr.toNat).getD (Config.srcUnwritten addr)

/-- `NvmWrite(off, byte)` (R62): stores the byte and records the write. -/
def nvmWrite (off : Half) (b : Byte) (s : State) : State :=
  { s with
    nvm := writeByte s.nvm off.toNat b
    nvmLog := { off := off, byte := b } :: s.nvmLog }

/-- The host puts a byte into the source space (R61, 44_host.md R224). -/
def sourcePut (addr : Half) (b : Byte) (s : State) : State :=
  { s with srcMem := writeByte s.srcMem addr.toNat b }

/-- The four writes of a start with divider select `p`, one step (42_capture.md R162, R170). -/
def startCapture (p : Nibble) (s : State) : State :=
  { s with cap.cstate := .sampling, cap.cie := true, cap.tdiv := p, cap.senseOe := false }

/-- The end of a capture: latch the raw sample, stop the timer, enter the given state (R176, R179). -/
def endCapture (raw : Byte) (c : CState) (s : State) : State :=
  { s with cap.raw := raw, cap.tdiv := 0, cap.cstate := c }

/-- Hardware reset with `rst` at the given level (70_reset_and_hazards.md R260, R262; 10_state.md R35): every
register at its reset value, the unspecified ones drawn anew; both spaces, the record of writes, the responses
given and the schedule stay. -/
def hardwareReset (level : Bool) (s : State) : State :=
  { s with
    inv := (Unspecified.draw s.draws).inv
    cap := CaptureRegs.afterReset s.params (Unspecified.draw s.draws)
    asw := StorageRegs.afterReset (Unspecified.draw s.draws)
    held := none
    rst := level
    draws := s.draws + drawsPerReset }

end Sys2Proof.Machine
end

