-- ==== Sys2Proof/Machine/Capture.lean ====
section
/-! DEFINITION. The capture unit U2 (42_capture.md): the commands CRESET, CSTART, CGET (issue step) and CSTAT,
the completion step of CGET, and the handlers of the events CMP and TICK. Each is one atomic step. -/

namespace Sys2Proof.Machine

/-- CRESET (R161): precharge, edge, timer cleared and stopped, comparator interrupt disarmed, Ready. -/
def execCreset (mode : Bool) (s : State) : Host.Outcome State Fault Refusal :=
  .next (respond .ok 0
    { s with
      cap.mode := mode
      cap.senseOe := true
      cap.senseLvl := !mode
      cap.edge := if mode then .rising else .falling
      cap.tcnt := 0
      cap.tdiv := 0
      cap.cie := false
      cap.cstate := .ready })

/-- CSTART (R162): prescaler 0 is answered ILLEGAL; otherwise the capture begins, in any state. -/
def execCstart (prescaler : Nibble) (s : State) : Host.Outcome State Fault Refusal :=
  if prescaler = 0 then .next (answerIllegal s)
  else .next (respond .ok 0 (startCapture prescaler s))

/-- CGET, issue step (R170): starts with the current prescaler and closes the command port; no response. -/
def execCget (s : State) : Host.Outcome State Fault Refusal :=
  .next { startCapture s.cap.presc s with cap.gpUsed := s.cap.presc, cap.gpend := true }

/-- CSTAT (R173): a snapshot in one step. -/
def execCstat (s : State) : Host.Outcome State Fault Refusal :=
  .next (respond .ok (statusWord s.cap) s)

/-- The sample the completion step answers (R171): the sentinel after an overflow, else
`compose(RAW << 8, P - 1)`. -/
def sampleOf (c : CaptureRegs) : Half :=
  if c.cstate = .completeOverflow then Config.sampleOvf
  else pack (c.raw.setWidth 16 <<< 8) (c.gpUsed - 1)

/-- The prescaler for the next call (R172): one step up after an overflow, capped at 15; one step down when the
raw sample is below the underflow threshold, floored at 1; else unchanged. -/
def autoRange (uthr : Byte) (c : CaptureRegs) : Nibble :=
  if c.cstate = .completeOverflow then (if c.gpUsed = 15 then 15 else c.gpUsed + 1)
  else if c.raw < uthr then (if c.gpUsed ≤ 1 then 1 else c.gpUsed - 1)
  else c.presc

/-- CGET, completion step, with auto-ranging (R171, R172): one atomic step. -/
def completeCget (s : State) : State :=
  respond .ok (zext32 (sampleOf s.cap))
    { s with cap.presc := autoRange s.params.uthr s.cap, cap.gpend := false }

/-- The completion step is enabled: "`GPEND = 1` and `CSTATE != Sampling`" (R171), and `rst` is released. -/
def completionEnabled (s : State) : Bool := s.cap.gpend && !isSampling s && !s.rst

/-- The capture sequencer's turn (00_scope.md R9): nothing, where its step is not enabled. -/
def sequencerTurn (s : State) : State := if completionEnabled s then completeCget s else s

/-- The comparator-edge handler (R176). -/
def handleCmp (s : State) : State :=
  if s.cap.cie && isSampling s then endCapture s.cap.tcnt .complete s else s

/-- The overflow arm of TICK (R179): the counter wraps; still Sampling, the sentinel is latched. -/
def overflowArm (s : State) : State :=
  if isSampling s then endCapture Config.rawMax .completeOverflow { s with cap.tcnt := 0 }
  else { s with cap.tcnt := 0 }

/-- One prescaled timer clock (R178): dropped while the timer is stopped (60_exceptions.md R233). -/
def handleTick (s : State) : State :=
  if timerRuns s then
    if s.cap.tcnt = 0xFF then overflowArm s else { s with cap.tcnt := s.cap.tcnt + 1 }
  else s

end Sys2Proof.Machine
end

