-- ==== Sys2Proof/Machine/Fpm.lean ====
section
/-! DEFINITION. The fixed-point format commands of U1: COMPOSE, EXSIG, EXEXP, NORM, TOI16, TOI32
(40_fixedpoint.md). They write no state and cannot fail. -/

namespace Sys2Proof.Machine

/-- `k` turns of "while e < 0" of R114: bit 0 is lost, bit 15 becomes 0. -/
def shiftRightTurns (k : Nat) (s : Half) : Half :=
  match k with
  | 0 => s
  | k + 1 => shiftRightTurns k (s >>> 1)

/-- `k` turns of "while e > 15" of R114; `none` when bit 15 is set before a turn (saturation). -/
def shiftLeftTurns (k : Nat) (s : Half) : Option Half :=
  match k with
  | 0 => some s
  | k + 1 => if s.msb then none else shiftLeftTurns k (s <<< 1)

/-- `normalize(s, e)` of R114, for a 16-bit `s` and any integer `e`. -/
def normalize (s : Half) (e : Int) : Half :=
  match e with
  | .negSucc k => pack (shiftRightTurns (k + 1) s) 0
  | .ofNat n =>
    if n ≤ 15 then pack s (BitVec.ofNat 4 n)
    else
      match shiftLeftTurns (n - 15) s with
      | none => Config.fpMax
      | some s' => pack s' 15

/-- COMPOSE (R110). -/
def execCompose (significand : Half) (exponent : Nibble) (s : State) : Host.Outcome State Fault Refusal :=
  .next (respond .ok (zext32 (pack significand exponent)) s)

/-- EXSIG (R111). -/
def execExsig (w : Half) (s : State) : Host.Outcome State Fault Refusal :=
  .next (respond .ok (zext32 (sig w)) s)

/-- EXEXP (R112). -/
def execExexp (w : Half) (s : State) : Host.Outcome State Fault Refusal :=
  .next (respond .ok (zext32 (expo w)) s)

/-- NORM (R114). -/
def execNorm (rawSignificand : Half) (signedExponent : Int) (s : State) : Host.Outcome State Fault Refusal :=
  .next (respond .ok (zext32 (normalize rawSignificand signedExponent)) s)

/-- The significand shifted left by the exponent, 32 bits wide: exact, at most 31 bits (R116, R117). -/
def shiftedSig (w : Half) : Word32 := zext32 (sig w) <<< (expo w).toNat

/-- TOI16 (R116): the low 16 bits of the shifted significand (D10; log 20). -/
def execToi16 (w : Half) (s : State) : Host.Outcome State Fault Refusal :=
  .next (respond .ok (zext32 ((shiftedSig w).setWidth 16)) s)

/-- TOI32 (R117). -/
def execToi32 (w : Half) (s : State) : Host.Outcome State Fault Refusal :=
  .next (respond .ok (shiftedSig w) s)

end Sys2Proof.Machine
end

