-- ==== Sys2Proof/Machine/Recip.lean ====
section
/-! DEFINITION. INV, the reciprocal by restoring division (41_reciprocal.md), as the loop that hardware builds
(R142), over the working registers of 10_state.md R31. -/

namespace Sys2Proof.Machine

/-- One iteration of R142: count, shift the remainder and bring in the numerator bit (1 in the first iteration
only), shift the result, compare, subtract and set the result bit. -/
def divIter (r : InvRegs) : InvRegs :=
  let n := r.n + 1
  let rem := (r.rem <<< 1) ||| (if n = 1 then 1 else 0)
  let q := r.q <<< 1
  if r.d ≤ rem then { r with n := n, rem := rem - r.d, q := q ||| 1 }
  else { r with n := n, rem := rem, q := q }

/-- "until Q[PREC-1] = 1 or N = NMAX" (R142). -/
def divDone (r : InvRegs) : Bool := r.q.msb || (r.n == BitVec.ofNat 6 Config.nmax)

/-- The loop of R142, at most `k` iterations. -/
def divLoop (k : Nat) (r : InvRegs) : InvRegs :=
  match k with
  | 0 => r
  | k + 1 => if divDone (divIter r) then divIter r else divLoop k (divIter r)

/-- `restoring_divide(D)` (R142): the working registers when it returns. -/
def restoringDivide (d : BitVec 17) : InvRegs :=
  divLoop Config.nmax { d := d, rem := 0, q := 0, n := 0 }

/-- The divisor `sig(f) + 1`, 17 bits wide (R141). -/
def divisor (f : Half) : BitVec 17 := (sig f).setWidth 17 + 1

/-- `E = x - ef - (N - 1) - (16 - PREC)`, an exact integer (R144). -/
def invExponent (f : Half) (x : Int) (r : InvRegs) : Int :=
  x - (expo f).toNat - ((r.n.toNat : Int) - 1) - (16 - 12)

/-- `normalize(Q << (16 - PREC), E)` (R145). -/
def invResult (f : Half) (x : Int) (r : InvRegs) : Half :=
  normalize (r.q.setWidth 16 <<< 4) (invExponent f x r)

/-- INV (R140): a zero significand answers 0xFFFF and runs no iteration (R146); otherwise the division runs in
the working registers, which keep what it leaves (log 11). -/
def execInv (f : Half) (extraShift : Int) (s : State) : Host.Outcome State Fault Refusal :=
  if sig f = 0 then .next (respond .ok (zext32 Config.fpMax) s)
  else
    .next (respond .ok (zext32 (invResult f extraShift (restoringDivide (divisor f))))
      { s with inv := restoringDivide (divisor f) })

end Sys2Proof.Machine
end

