-- ==== Sys2Proof/Machine/Storage.lean ====
section
/-! DEFINITION. The storage writer U3 (43_storage_writer.md): SWRITE, SDONE and the handler of the event SRDY. -/

namespace Sys2Proof.Machine

/-- SWRITE (R201): BUSY leaves everything untouched; length 0 is an empty transfer, complete at once (D21);
otherwise the descriptor is recorded and the ready interrupt enabled. -/
def execSwrite (source destination : Half) (length : Byte) (s : State) : Host.Outcome State Fault Refusal :=
  if s.asw.busy then .next (respond .busy 0 s)
  else if length = 0 then .next (respond .ok 0 s)
  else
    .next (respond .ok 0
      { s with
        asw := { src := source, dst := destination, len := length, rem := length, busy := true, rie := true } })

/-- SDONE (R202): a pure read of the busy flag. -/
def execSdone (s : State) : Host.Outcome State Fault Refusal :=
  .next (respond .ok (if s.asw.busy then 0 else 1) s)

/-- `i = LEN - REM`, the index of the next byte (R206), as an address offset. -/
def transferIndex (a : StorageRegs) : Half := (a.len - a.rem).setWidth 16

/-- The source address of the next byte, modulo 2^16 (20_memory.md R64). -/
def transferSrc (a : StorageRegs) : Half := a.src + transferIndex a

/-- The destination offset of the next byte, modulo 2^16 (R64). -/
def transferDst (a : StorageRegs) : Half := a.dst + transferIndex a

/-- The storage-ready handler (R206): exactly one byte, then the count, and the flags with the last byte. A
pulse while the interrupt is disabled is dropped (60_exceptions.md R233). -/
def handleSrdy (s : State) : State :=
  if nvmRieOut s then
    let t := nvmWrite (transferDst s.asw) (srcRead (transferSrc s.asw) s) s
    if s.asw.rem - 1 = 0 then { t with asw.rem := s.asw.rem - 1, asw.rie := false, asw.busy := false }
    else { t with asw.rem := s.asw.rem - 1 }
  else s

end Sys2Proof.Machine
end

