-- ==== Sys2Proof/Machine/Dispatch.lean ====
section
/-! DEFINITION. One arm for each command (30_encoding.md R85). -/

namespace Sys2Proof.Machine

-- The effect of a command when it is issued; the port that issues it is in Agents.lean.
def exec (i : Instr) (s : State) : Host.Outcome State Fault Refusal :=
  match i with
  | .compose significand exponent => Sys2Proof.Machine.execCompose significand exponent s
  | .exsig w => Sys2Proof.Machine.execExsig w s
  | .exexp w => Sys2Proof.Machine.execExexp w s
  | .norm rawSignificand signedExponent => Sys2Proof.Machine.execNorm rawSignificand signedExponent s
  | .inv f extraShift => Sys2Proof.Machine.execInv f extraShift s
  | .toi16 w => Sys2Proof.Machine.execToi16 w s
  | .toi32 w => Sys2Proof.Machine.execToi32 w s
  | .creset mode => Sys2Proof.Machine.execCreset mode s
  | .cstart prescaler => Sys2Proof.Machine.execCstart prescaler s
  | .cget => Sys2Proof.Machine.execCget s
  | .cstat => Sys2Proof.Machine.execCstat s
  | .swrite source destination length => Sys2Proof.Machine.execSwrite source destination length s
  | .sdone => Sys2Proof.Machine.execSdone s

end Sys2Proof.Machine
end

