-- ==== Sys2Proof/Machine/Agents.lean ====
section
/-! DEFINITION. The steps of the agents of 00_scope.md R9: the host's command port, the capture sequencer, the
three event inputs, the source space and the reset input. -/

namespace Sys2Proof.Machine

/-- Issue the command the words hold. An undefined opcode is answered ILLEGAL (30_encoding.md R87); an
incomplete command is none yet, and has no effect. -/
def runCommand (ws : List Word32) (s : State) : Host.Outcome State Fault Refusal :=
  match decode s.params.hasAsw ws with
  | .ok i _ => exec i s
  | .refused (.undefinedOpcode _) => .next (answerIllegal s)
  | .refused .incomplete => .next s

/-- The command port takes one word (R80, R82, R83): word 0 of a two-word command is held, and the command takes
effect with its last word. With `cmd_ready = 0` the port does not accept the word (R92; 44_host.md R224; log 8). -/
def acceptWord (w : Word32) (s : State) : Host.Outcome State Fault Refusal :=
  if cmdReady s then
    match s.held with
    | some w0 => runCommand [w0, w] { s with held := none }
    | none =>
      if commandLength s.params.hasAsw w = 2 then .next { s with held := some w }
      else runCommand [w] s
  else .refused .commandWhileNotReady

/-- An event handler, dropped while `rst` is asserted (70_reset_and_hazards.md R260). -/
def unlessReset (handler : State → State) (s : State) : State := if s.rst then s else handler s

/-- The step of the agent that moves. -/
def takeMove (m : Move) (s : State) : Host.Outcome State Fault Refusal :=
  match m with
  | .word w => acceptWord w s
  | .sequencer => .next (sequencerTurn s)
  | .cmp => .next (unlessReset handleCmp s)
  | .tick => .next (unlessReset handleTick s)
  | .srdy => .next (unlessReset handleSrdy s)
  | .sourcePut addr b => .next (sourcePut addr b s)
  | .assertReset => .next (hardwareReset true s)
  | .releaseReset => .next (if s.rst then hardwareReset false s else s)

end Sys2Proof.Machine
end

