-- ==== Sys2Proof/Machine/Step.lean ====
section
/-! DEFINITION. One step of the machine: the first move of the schedule is taken; with nothing scheduled, the
block's own agent, the capture sequencer, has its turn (log 6). -/

namespace Sys2Proof.Machine

/-- One atomic step (20_memory.md R67). -/
def step (s : State) : Host.Outcome State Fault Refusal :=
  match s.moves with
  | [] => .next (sequencerTurn s)
  | m :: rest => takeMove m { s with moves := rest }

/-- `s` with the command whose bits are `w` presented next, so that the very next step issues it: the port open
(`rst` released, no CGET pending), a C32 word as the next move, and for C64 word 0 already held and word 1 as the
next move (log 14). -/
def State.withFetchWord (s : State) (nbits w : Nat) : State :=
  if commandLength s.params.hasAsw (tableWords nbits w).1 = 2 then
    { s with
      cap.gpend := false, rst := false
      held := some (tableWords nbits w).1
      moves := .word (tableWords nbits w).2 :: s.moves }
  else
    { s with
      cap.gpend := false, rst := false
      held := none
      moves := .word (tableWords nbits w).1 :: s.moves }

end Sys2Proof.Machine
end

