-- ==== Sys2Proof/Safety.lean ====
section
/-! DEFINITION. What holds of every reachable state, and when a run is over, in the terms the claims use. -/

namespace Sys2Proof.Safety

open Sys2Proof.Machine

/-- The invariants of U2 (42_capture.md R181, items 1 to 5; item 6 is the type of `CSTATE`). -/
structure CaptureInv (c : CaptureRegs) : Prop where
  /-- R181.1 -/
  timer : c.tdiv ≠ 0 ↔ c.cstate = .sampling
  /-- R181.2 -/
  armed : c.cstate = .sampling → c.cie = true ∧ c.senseOe = false
  /-- R181.3 -/
  pending : c.gpend = true →
    (c.cstate = .sampling ∨ c.cstate = .complete ∨ c.cstate = .completeOverflow) ∧ c.presc = c.gpUsed
  /-- R181.4 -/
  range : 1 ≤ c.presc.toNat ∧ c.presc.toNat ≤ 15
  /-- R181.5 -/
  overflow : c.cstate = .completeOverflow → c.raw = 0xFF

/-- What CRESET leaves holds while the capture has not started (R161). -/
structure ReadyInv (c : CaptureRegs) : Prop where
  cleared : c.cstate = .ready → c.tcnt = 0
  driven : c.cstate = .ready → c.senseOe = true
  disarmed : c.cstate = .ready → c.cie = false

/-- The invariants of U3 (10_state.md R32, 43_storage_writer.md R207); without U3 nothing is in flight. -/
structure StorageInv (hasAsw : Bool) (a : StorageRegs) : Prop where
  enabled : a.busy = a.rie
  remaining : a.busy = true → 1 ≤ a.rem.toNat ∧ a.rem.toNat ≤ a.len.toNat
  present : a.busy = true → hasAsw = true

/-- A held word is word 0 of a two-word command, held while the port is open (30_encoding.md R82, R83, R92). -/
def PortInv (s : State) : Prop :=
  ∀ w, s.held = some w → commandLength s.params.hasAsw w = 2 ∧ cmdReady s = true

/-- While `rst` is asserted the block stays as reset leaves it (70_reset_and_hazards.md R260). -/
def ResetInv (s : State) : Prop :=
  s.rst = true →
    s.cap.cstate = .idle ∧ s.cap.presc = s.params.prescInit ∧ s.cap.tcnt = 0 ∧ s.cap.tdiv = 0 ∧ s.cap.cie = false
      ∧ s.cap.mode = false ∧ s.cap.edge = .falling ∧ s.cap.senseOe = false ∧ s.cap.senseLvl = false
      ∧ s.cap.gpend = false ∧ s.asw.busy = false ∧ s.asw.rie = false ∧ s.held = none

/-- Both address spaces are in canonical form. -/
def MemoryInv (s : State) : Prop := Memory.wf s.srcMem ∧ Memory.wf s.nvm

/-- "the final content of `NVM` at an offset is the byte of the last write to it" (20_memory.md R62). -/
def LastWriteInv (s : State) : Prop :=
  ∀ off : Half, readByte s.nvm off.toNat = (s.nvmLog.find? fun w => w.off == off).map NvmWrite.byte

/-- The invariant of the machine. -/
structure Inv (s : State) : Prop where
  capture : CaptureInv s.cap
  ready : ReadyInv s.cap
  storage : StorageInv s.params.hasAsw s.asw
  port : PortInv s
  inReset : ResetInv s
  memory : MemoryInv s
  lastWrite : LastWriteInv s

/-- The host has issued every command of its sequence (44_host.md R225, clause 1): no command word is still to come. -/
def allIssued (s : State) : Bool :=
  s.moves.all fun m =>
    match m with
    | .word _ => false
    | _ => true

/-- A run is over (44_host.md R225): every command issued whole and answered, no CGET pending, the timer stopped, and
no transfer in flight. -/
def runOver (s : State) : Bool :=
  allIssued s && s.held.isNone && !s.cap.gpend && !timerRuns s && !s.asw.rie

/-- The duty of the host before a start (44_host.md R221, 70_reset_and_hazards.md R272): the last capture command
was CRESET. -/
def startDuty (s : State) : Bool := s.cap.cstate == .ready

/-- The address of byte `i` of a transfer with base `base`: `trunc_16(base + i)` (20_memory.md R64). -/
def byteAddr (base : Half) (i : Nat) : Nat := (base.toNat + i) % 65536

/-- Byte `i` of the source of the transfer in flight (43_storage_writer.md R206); where the host has put no byte,
the free value of its address (log 12). -/
def sourceByte (s : State) (i : Nat) : Byte :=
  (readByte s.srcMem (byteAddr s.asw.src i)).getD (Config.srcUnwritten (BitVec.ofNat 16 (byteAddr s.asw.src i)))

/-- While a transfer is in flight, bytes are left, and the newest `LEN - REM` writes are those of the bytes
`0 .. LEN-REM-1` of its destination, in ascending order (20_memory.md R67, item 4; 43_storage_writer.md R207). The
record has the newest write first. -/
structure TransferInv (s : State) : Prop where
  remaining : s.asw.busy = true → 1 ≤ s.asw.rem.toNat ∧ s.asw.rem.toNat ≤ s.asw.len.toNat
  written : s.asw.busy = true →
    (s.nvmLog.take (s.asw.len.toNat - s.asw.rem.toNat)).map (fun w => w.off.toNat)
      = ((List.range (s.asw.len.toNat - s.asw.rem.toNat)).map (byteAddr s.asw.dst)).reverse

/-- Every byte of both spaces reads as before. -/
def SpacesUnchanged (s t : State) : Prop :=
  ∀ a : Nat, readByte t.srcMem a = readByte s.srcMem a ∧ readByte t.nvm a = readByte s.nvm a

/-- The parameters, the record of writes, the reset input, the held word, the schedule and the draw counter are
as before: what no command writes. -/
def PortsUnchanged (s t : State) : Prop :=
  t.params = s.params ∧ t.nvmLog = s.nvmLog ∧ t.rst = s.rst ∧ t.held = s.held ∧ t.moves = s.moves
    ∧ t.draws = s.draws

end Sys2Proof.Safety
end

