-- ==== Sys2Proof/WellFormed.lean ====
section
/-! DEFINITION. Which terms of `Instr` are commands of a block with or without U3: the signed operands lie in
the range 8 bits of two's complement hold (30_encoding.md R88, D4), and the commands of U3 exist only when
`HAS_ASW` is true (R85). Every other operand's range is its type's. -/

namespace Sys2Proof

/-- The range of a signed operand, -128 to 127 (R88). -/
def inSext8 (x : Int) : Bool := decide (-128 ≤ x) && decide (x ≤ 127)

/-- The command exists in a block whose `HAS_ASW` is `hasAsw`, and its operands can be encoded. -/
def wellFormed (hasAsw : Bool) : Instr → Bool
  | .compose _ _ => true
  | .exsig _ => true
  | .exexp _ => true
  | .norm _ e => inSext8 e
  | .inv _ x => inSext8 x
  | .toi16 _ => true
  | .toi32 _ => true
  | .creset _ => true
  | .cstart _ => true
  | .cget => true
  | .cstat => true
  | .swrite _ _ _ => hasAsw
  | .sdone => hasAsw

end Sys2Proof
end

