-- ==== Sys2Proof/Certificates/Slice0/Obligations.lean ====
section
/-! DEFINITION. The statements for the provers. Each docstring names the rule of spec/ that it formalises.
Results are said in numbers (`toNat`), not in the model's own functions. A capital name of the spec is the field
of the same name: `CSTATE` is `s.cap.cstate`, `REM` is `s.asw.rem`. -/

open Sys2Proof Sys2Proof.Machine Sys2Proof.Safety

/-! ## Encoding and the command port -/

/-- Words written out from 30_encoding.md R85, R88, R89 decode to the commands they stand for (the table of
95_test_vectors.md section 2.1). -/
def Obligations.SpecWordsDecode : Prop :=
  decode true [0x01025A00] = .ok (.compose 0x5A00 2) []
    ∧ decode true [0x02AB5A02] = .ok (.exsig 0x5A02) []
    ∧ decode true [0x04FC1234] = .ok (.norm 0x1234 (-4)) []
    ∧ decode true [0x051F8000] = .ok (.inv 0x8000 31) []
    ∧ decode true [0x10FFBEEF] = .ok (.creset true) []
    ∧ decode true [0x11F30000] = .ok (.cstart 3) []
    ∧ decode true [0x12000000] = .ok .cget []
    ∧ decode true [0x20030100, 0xDEAD0020] = .ok (.swrite 0x0100 0x0020 3) []
    ∧ decode true [0x00000000] = .refused (.undefinedOpcode 0)
    ∧ decode false [0x20030100] = .refused (.undefinedOpcode 0x20)

/-- Decode and encode agree (30_encoding.md R81, R82, R85, R88): for every command of a block with or without U3,
whatever words follow it. -/
def Obligations.DecodeOfEncodeIsTheCommand : Prop :=
  ∀ (hasAsw : Bool) (i : Instr) (rest : List Word32),
    wellFormed hasAsw i = true → decode hasAsw (encode i ++ rest) = .ok i rest

/-- 30_encoding.md R83: the length of a command is decided by `op` of its first word; and what is decoded is a
well-formed command. -/
def Obligations.CommandLengthFromFirstWord : Prop :=
  ∀ (hasAsw : Bool) (w0 : Word32) (tail : List Word32) (i : Instr) (rest : List Word32),
    decode hasAsw (w0 :: tail) = .ok i rest →
      wellFormed hasAsw i = true
        ∧ rest = tail.drop (if hasAsw = true ∧ w0.toNat / 2 ^ 24 = 0x20 then 1 else 0)
        ∧ (hasAsw = true ∧ w0.toNat / 2 ^ 24 = 0x20 → tail ≠ [])

/-- 30_encoding.md R88: how each operand is taken from the packet, for every word: `a` is bits 15:0, `b` bits 23:16,
`c` bits 15:0 of word 1; an exponent and a prescaler are `b[3:0]`, a mode `b[0]`, a signed exponent and an extra shift
`sext_8(b)`. -/
def Obligations.OperandsAreTakenFromThePacket : Prop :=
  ∀ (hasAsw : Bool) (w : Word32) (rest : List Word32) (op a b : Nat) (sb : Int),
    op = w.toNat / 2 ^ 24 → a = w.toNat % 2 ^ 16 → b = w.toNat / 2 ^ 16 % 2 ^ 8 →
    sb = (if b < 128 then (b : Int) else b - 256) →
      (op = 0x01 → ∃ sg e, decode hasAsw (w :: rest) = .ok (.compose sg e) rest ∧ sg.toNat = a ∧ e.toNat = b % 16)
        ∧ (op = 0x02 → ∃ f, decode hasAsw (w :: rest) = .ok (.exsig f) rest ∧ f.toNat = a)
        ∧ (op = 0x03 → ∃ f, decode hasAsw (w :: rest) = .ok (.exexp f) rest ∧ f.toNat = a)
        ∧ (op = 0x04 → ∃ sg, decode hasAsw (w :: rest) = .ok (.norm sg sb) rest ∧ sg.toNat = a)
        ∧ (op = 0x05 → ∃ f, decode hasAsw (w :: rest) = .ok (.inv f sb) rest ∧ f.toNat = a)
        ∧ (op = 0x06 → ∃ f, decode hasAsw (w :: rest) = .ok (.toi16 f) rest ∧ f.toNat = a)
        ∧ (op = 0x07 → ∃ f, decode hasAsw (w :: rest) = .ok (.toi32 f) rest ∧ f.toNat = a)
        ∧ (op = 0x10 → ∃ m, decode hasAsw (w :: rest) = .ok (.creset m) rest ∧ m.toNat = b % 2)
        ∧ (op = 0x11 → ∃ p, decode hasAsw (w :: rest) = .ok (.cstart p) rest ∧ p.toNat = b % 16)
        ∧ (op = 0x12 → decode hasAsw (w :: rest) = .ok .cget rest)
        ∧ (op = 0x13 → decode hasAsw (w :: rest) = .ok .cstat rest)
        ∧ (hasAsw = true → op = 0x20 → ∀ w1 : Word32, ∃ src dst len,
            decode hasAsw (w :: w1 :: rest) = .ok (.swrite src dst len) rest
              ∧ src.toNat = a ∧ dst.toNat = w1.toNat % 2 ^ 16 ∧ len.toNat = b)
        ∧ (hasAsw = true → op = 0x21 → decode hasAsw (w :: rest) = .ok .sdone rest)

/-- 30_encoding.md R86: the bits that R85 marks unused and that R88 says are ignored have no effect. Each row: the
value of `op`, and the bits of word 0 that are not ignored. -/
def Obligations.IgnoredBitsHaveNoEffect : Prop :=
  (∀ row ∈ ([(0x01, 0xFF0FFFFF), (0x02, 0xFF00FFFF), (0x03, 0xFF00FFFF), (0x04, 0xFFFFFFFF), (0x05, 0xFFFFFFFF),
        (0x06, 0xFF00FFFF), (0x07, 0xFF00FFFF), (0x10, 0xFF010000), (0x11, 0xFF0F0000), (0x12, 0xFF000000),
        (0x13, 0xFF000000), (0x20, 0xFFFFFFFF), (0x21, 0xFF000000)] : List (Byte × Word32)),
      ∀ (hasAsw : Bool) (w : Word32) (tail : List Word32), opField w = row.1 →
        decode hasAsw (w :: tail) = decode hasAsw ((w &&& row.2) :: tail))
    ∧ ∀ (hasAsw : Bool) (w w1 : Word32) (tail : List Word32), opField w = 0x20 →
        decode hasAsw (w :: w1 :: tail) = decode hasAsw (w :: (w1 &&& 0x0000FFFF) :: tail)

/-- 30_encoding.md R87: a value of `op` with no row in R85 is a one-word command, answered ILLEGAL with word zero,
and changes no state; 0x20 and 0x21 are such values when `HAS_ASW` is false. -/
def Obligations.UndefinedOpcodeAnswersIllegal : Prop :=
  ∀ (s : State) (w : Word32) (rest : List Move),
    s.cap.gpend = false → s.rst = false → s.held = none → s.moves = .word w :: rest →
    w.toNat / 2 ^ 24 ∉ [0x01, 0x02, 0x03, 0x04, 0x05, 0x06, 0x07, 0x10, 0x11, 0x12, 0x13] →
    (s.params.hasAsw = true → w.toNat / 2 ^ 24 ∉ [0x20, 0x21]) →
      step s = .next { s with moves := rest, responses := { status := .illegal, value := 0 } :: s.responses }

/-- A step runs the decoded command (30_encoding.md R80 to R83). One word: the first move is that word, the port is
open, and the step is the command's effect after the word is taken. Two words: word 0 is held, and the step that
takes word 1 is the command's effect with nothing held any more. -/
def Obligations.StepRunsTheDecodedCommand : Prop :=
  (∀ (s : State) (w : Word32) (rest : List Move) (i : Instr) (tail : List Word32),
      s.cap.gpend = false → s.rst = false → s.held = none → s.moves = .word w :: rest →
      decode s.params.hasAsw [w] = .ok i tail →
        step s = exec i { s with moves := rest })
    ∧ ∀ (s : State) (w0 w1 : Word32) (rest : List Move) (i : Instr) (tail : List Word32),
        s.cap.gpend = false → s.rst = false → s.held = some w0 → s.moves = .word w1 :: rest →
        decode s.params.hasAsw [w0, w1] = .ok i tail →
          step s = exec i { s with moves := rest, held := none }

/-- Word 0 of SWRITE is taken first and answers nothing; any event may come before word 1 (30_encoding.md R82), and
leaves word 0 held. That the port holds word 0, in a field of its own, is the model's inference (log 7, DEDUCED). -/
def Obligations.WordZeroOfSwriteIsHeld : Prop :=
  (∀ (s : State) (w : Word32) (rest : List Move),
      s.cap.gpend = false → s.rst = false → s.held = none → s.moves = .word w :: rest →
      s.params.hasAsw = true → w.toNat / 2 ^ 24 = 0x20 →
        step s = .next { s with moves := rest, held := some w })
    ∧ ∀ (s t : State) (m : Move) (rest : List Move),
        s.moves = m :: rest → m ∈ [Move.cmp, Move.tick, Move.srdy, Move.sequencer] → step s = .next t →
          t.held = s.held

/-- While `cmd_ready = 0` no command can be issued (30_encoding.md R92, 10_state.md R36). That the step then has
the outcome "refused" is the model's choice (log 8): 44_host.md R224 assumes it never happens. -/
def Obligations.ClosedPortTakesNoWord : Prop :=
  ∀ (s : State) (w : Word32) (rest : List Move),
    s.cap.gpend = true ∨ s.rst = true → s.moves = .word w :: rest →
      step s = .refused .commandWhileNotReady

/-- 30_encoding.md R84: a step gives at most one response, never with status code 3; with status BUSY or ILLEGAL
the word is zero and nothing changes but that the word was taken (a held word 0 with it: the model's field, log 7). -/
def Obligations.OneResponseAndNoEffectWithoutOk : Prop :=
  ∀ s t : State, step s = .next t →
    t.responses = s.responses ∨
      ∃ r : Response, t.responses = r :: s.responses ∧ Status.code r.status ≠ 3
        ∧ (r.status ≠ .ok →
            r.value = 0 ∧ t = { s with moves := s.moves.tail, held := none, responses := r :: s.responses })

/-- There is no exception (60_exceptions.md R230): every command, whatever its operands and the state, ends in a
next state; and a step fails to only where a word is presented to a closed port (the model's choice, log 8). -/
def Obligations.EveryCommandAndEveryStepCompletes : Prop :=
  (∀ (i : Instr) (s : State), ∃ t : State, exec i s = .next t)
    ∧ ∀ s : State, (∃ t : State, step s = .next t)
        ∨ (step s = .refused .commandWhileNotReady ∧ cmdReady s = false
          ∧ ∃ (w : Word32) (rest : List Move), s.moves = .word w :: rest)

/-! ## Unit U1: the fixed-point format commands -/

/-- 40_fixedpoint.md R110: COMPOSE answers `(a & 0xFFF0) | b[3:0]` and writes no state. -/
def Obligations.ComposeMasksAndPacks : Prop :=
  ∀ (significand : Half) (exponent : Nibble) (s : State), ∃ v : Word32,
    exec (.compose significand exponent) s
        = .next { s with responses := { status := .ok, value := v } :: s.responses }
      ∧ v.toNat = significand.toNat / 16 * 16 + exponent.toNat

/-- 40_fixedpoint.md R111 and R112: EXSIG answers the significand in place, EXEXP the exponent, 0 to 15; neither
writes state. -/
def Obligations.ExtractReadsTheFields : Prop :=
  ∀ (w : Half) (s : State),
    (∃ v : Word32,
        exec (.exsig w) s = .next { s with responses := { status := .ok, value := v } :: s.responses }
          ∧ v.toNat = w.toNat / 16 * 16)
      ∧ ∃ v : Word32,
        exec (.exexp w) s = .next { s with responses := { status := .ok, value := v } :: s.responses }
          ∧ v.toNat = w.toNat % 16

/-- 40_fixedpoint.md R113, the round-trip law: extraction gives back what COMPOSE packed, COMPOSE gives back what
extraction read, and two valid pairs with one word are one pair. -/
def Obligations.ComposeAndExtractRoundTrip : Prop :=
  (∀ (sg : Half) (e : Nibble) (s : State), ∃ v a b : Word32,
      exec (.compose sg e) s = .next { s with responses := { status := .ok, value := v } :: s.responses }
        ∧ exec (.exsig (v.setWidth 16)) s
            = .next { s with responses := { status := .ok, value := a } :: s.responses }
        ∧ exec (.exexp (v.setWidth 16)) s
            = .next { s with responses := { status := .ok, value := b } :: s.responses }
        ∧ a.toNat = sg.toNat / 16 * 16 ∧ b.toNat = e.toNat)
    ∧ (∀ (w : Half) (s : State), ∃ a b v : Word32,
      exec (.exsig w) s = .next { s with responses := { status := .ok, value := a } :: s.responses }
        ∧ exec (.exexp w) s = .next { s with responses := { status := .ok, value := b } :: s.responses }
        ∧ exec (.compose (a.setWidth 16) (b.setWidth 4)) s
            = .next { s with responses := { status := .ok, value := v } :: s.responses }
        ∧ v.toNat = w.toNat)
    ∧ ∀ (sg sg' : Half) (e e' : Nibble) (s : State), sg.toNat % 16 = 0 → sg'.toNat % 16 = 0 →
        exec (.compose sg e) s = exec (.compose sg' e') s → sg = sg' ∧ e = e'

/-- 40_fixedpoint.md R115: the closed form of the saturating normalize, for every significand and every integer
exponent (so for every signed exponent NORM can carry); NORM writes no state. With it the value law: the result
never exceeds `s * 2^e`, and it saturates only where `s * 2^e` exceeds the largest value of the format. -/
def Obligations.NormClosedForm : Prop :=
  ∀ (sg : Half) (e : Int) (s : State), ∃ v : Word32,
    exec (.norm sg e) s = .next { s with responses := { status := .ok, value := v } :: s.responses }
      ∧ (e ≤ -16 → v.toNat = 0)
      ∧ (-16 < e → e < 0 →
          v.toNat = sg.toNat / 2 ^ (-e).toNat / 16 * 16 ∧ v.toNat * 2 ^ (-e).toNat ≤ sg.toNat)
      ∧ (0 ≤ e → e ≤ 15 → v.toNat = sg.toNat / 16 * 16 + e.toNat)
      ∧ (15 < e → 65536 ≤ sg.toNat * 2 ^ (e - 15).toNat →
          v.toNat = 0xFFFF ∧ 0xFFF0 * 2 ^ 15 < sg.toNat * 2 ^ e.toNat)
      ∧ (15 < e → sg.toNat * 2 ^ (e - 15).toNat < 65536 →
          v.toNat = sg.toNat * 2 ^ (e - 15).toNat / 16 * 16 + 15)
      ∧ (0 ≤ e → v.toNat / 16 * 16 * 2 ^ (v.toNat % 16) ≤ sg.toNat * 2 ^ e.toNat)

/-- 40_fixedpoint.md R116 and R117: TOI32 answers the value exactly, below 2^31; TOI16 answers its low 16 bits;
neither writes state. For a value of 65536 or more R116 also offers "any 16-bit value" as the cautious treatment; that
the model takes the truncation of the rule's pseudocode is log 20. -/
def Obligations.IntegerConversions : Prop :=
  ∀ (w : Half) (s : State),
    (∃ v : Word32,
        exec (.toi16 w) s = .next { s with responses := { status := .ok, value := v } :: s.responses }
          ∧ v.toNat = w.toNat / 16 * 16 * 2 ^ (w.toNat % 16) % 65536)
      ∧ ∃ v : Word32,
        exec (.toi32 w) s = .next { s with responses := { status := .ok, value := v } :: s.responses }
          ∧ v.toNat = w.toNat / 16 * 16 * 2 ^ (w.toNat % 16) ∧ v.toNat < 2 ^ 31

/-! ## Unit U1: the reciprocal -/

/-- 41_reciprocal.md R146: for a zero significand, any of the words 0x0000 to 0x000F, INV answers 0xFFFF for every
extra shift and runs no iteration. That the working registers, which the spec calls not observable, are then as before
is the model's choice (log 11). -/
def Obligations.InverseOfZeroSignificand : Prop :=
  ∀ (f : Half) (x : Int) (s : State), f.toNat < 16 →
    exec (.inv f x) s = .next { s with responses := { status := .ok, value := 0x0000FFFF } :: s.responses }

/-- The loop invariant of 41_reciprocal.md R142: after `k` iterations `Q = floor(2^(k-1) / D)` (its low 12 bits: the
register is 12 bits wide), `REM = 2^(k-1) mod D`, `N = k`, and the divisor is unchanged. -/
def Obligations.RestoringDivisionLoopInvariant : Prop :=
  ∀ (d : BitVec 17) (k : Nat), 1 ≤ d.toNat → d.toNat ≤ 0xFFF1 → 1 ≤ k → k ≤ 32 →
    ∀ r : InvRegs, r = divIter^[k] { d := d, rem := 0, q := 0, n := 0 } →
    r.d = d ∧ r.n.toNat = k ∧ r.rem.toNat = 2 ^ (k - 1) % d.toNat ∧ r.q.toNat = 2 ^ (k - 1) / d.toNat % 2 ^ 12

/-- 41_reciprocal.md R143: with `L = clog2(D)` the loop stops by its early-termination test, at exactly `N = L + 12`
iterations, with `Q = floor(2^(L+11) / D)` between 2^11 and 2^12 - 1; `L <= 16` and `N <= 28`, so the bound of 32 is
never the reason; for `17 <= D`, also `5 <= L` and `17 <= N`. -/
def Obligations.RestoringDivisionTerminates : Prop :=
  ∀ (d : BitVec 17) (r : InvRegs) (L : Nat), 1 ≤ d.toNat → d.toNat ≤ 0xFFF1 →
    r = restoringDivide d → L = Nat.clog 2 d.toNat →
    r.n.toNat = L + 12 ∧ r.q.toNat = 2 ^ (L + 11) / d.toNat ∧ 2 ^ 11 ≤ r.q.toNat ∧ r.q.toNat ≤ 2 ^ 12 - 1
      ∧ r.rem.toNat = 2 ^ (L + 11) % d.toNat ∧ L ≤ 16 ∧ r.n.toNat ≤ 28
      ∧ (17 ≤ d.toNat → 5 ≤ L ∧ 17 ≤ r.n.toNat)

/-- 41_reciprocal.md R147: the closed form of INV, for every word and every extra shift, equal to what the loop
answers. With a non-zero significand the only other state written is the working registers, which are "not
observable" (10_state.md R31); that a zero significand leaves them as they were is the model's choice (log 11). -/
def Obligations.InverseClosedForm : Prop :=
  ∀ (f : Half) (x : Int) (s : State),
    (f.toNat / 16 * 16 = 0 →
        exec (.inv f x) s = .next { s with responses := { status := .ok, value := 0x0000FFFF } :: s.responses })
      ∧ (f.toNat / 16 * 16 ≠ 0 → ∀ (D L Q : Nat) (E : Int), D = f.toNat / 16 * 16 + 1 → L = Nat.clog 2 D →
        Q = 2 ^ (L + 11) / D → E = x - (f.toNat % 16 : Nat) - L - 15 →
        ∃ (r : InvRegs) (v : Word32),
          exec (.inv f x) s
              = .next { s with inv := r, responses := { status := .ok, value := v } :: s.responses }
            ∧ (15 < E → v.toNat = 0xFFFF)
            ∧ (0 ≤ E → E ≤ 15 → v.toNat = Q * 16 + E.toNat)
            ∧ (-16 < E → E < 0 → v.toNat = Q * 16 / 2 ^ (-E).toNat / 16 * 16)
            ∧ (E ≤ -16 → v.toNat = 0))

/-- What INV leaves in its working registers: with a non-zero significand what the loop of 41_reciprocal.md R142 holds
when it stops, in the closed form of R143; with a zero significand what they held. That they are kept after the
command is the model's choice (log 11): the spec calls them not observable. -/
def Obligations.InverseLeavesTheLoopsRegisters : Prop :=
  ∀ (f : Half) (x : Int) (s : State), ∃ t : State, exec (.inv f x) s = .next t
    ∧ (f.toNat / 16 * 16 = 0 → t.inv = s.inv)
    ∧ (f.toNat / 16 * 16 ≠ 0 → ∀ D L : Nat, D = f.toNat / 16 * 16 + 1 → L = Nat.clog 2 D →
        t.inv.d.toNat = D ∧ t.inv.q.toNat = 2 ^ (L + 11) / D ∧ t.inv.n.toNat = L + 12
          ∧ t.inv.rem.toNat = 2 ^ (L + 11) % D)

/-- The accuracy of INV (41_reciprocal.md R148), in whole numbers: where `normalize` loses no bit (`0 <= E <= 15`),
`val(INV(f, x)) * val(f)` is below `2^x`, and above `2^x` times `1 - 1/(sig(f)+1) - 2^-11`. -/
def Obligations.InverseAccuracy : Prop :=
  ∀ (f : Half) (x : Int) (s : State) (S : Nat) (E : Int), 16 ≤ f.toNat → S = f.toNat / 16 * 16 →
    E = x - (f.toNat % 16 : Nat) - Nat.clog 2 (S + 1) - 15 →
    0 ≤ E → E ≤ 15 →
      ∃ (r : InvRegs) (v : Word32),
        exec (.inv f x) s = .next { s with inv := r, responses := { status := .ok, value := v } :: s.responses }
          ∧ (v.toNat / 16 * 16 * 2 ^ (v.toNat % 16)) * (S * 2 ^ (f.toNat % 16)) < 2 ^ x.toNat
          ∧ 2 ^ x.toNat * ((S + 1) * 2 ^ 11 - 2 ^ 11 - (S + 1))
              < (v.toNat / 16 * 16 * 2 ^ (v.toNat % 16)) * (S * 2 ^ (f.toNat % 16)) * ((S + 1) * 2 ^ 11)

/-- The commands of U1 are pure (10_state.md R31, "pure functions of their operands"): whatever the two states, the
same command gives the same response. -/
def Obligations.FixedPointCommandsReadNoState : Prop :=
  ∀ (i : Instr) (s s' : State),
    (∃ a e, i = .compose a e) ∨ (∃ a, i = .exsig a) ∨ (∃ a, i = .exexp a) ∨ (∃ a e, i = .norm a e)
        ∨ (∃ f x, i = .inv f x) ∨ (∃ a, i = .toi16 a) ∨ (∃ a, i = .toi32 a) →
      ∃ (r : Response) (t t' : State),
        exec i s = .next t ∧ exec i s' = .next t' ∧ r.status = .ok
          ∧ t.responses = r :: s.responses ∧ t'.responses = r :: s'.responses

/-- The frame of the seven commands of U1: a next state differs from the state before in one response more, and
for INV in the working registers. -/
def Obligations.FixedPointCommandsFrame : Prop :=
  ∀ (i : Instr) (s t : State), exec i s = .next t →
    ((∃ a e, i = .compose a e) ∨ (∃ a, i = .exsig a) ∨ (∃ a, i = .exexp a) ∨ (∃ a e, i = .norm a e)
        ∨ (∃ a, i = .toi16 a) ∨ (∃ a, i = .toi32 a) →
      t.inv = s.inv ∧ t.cap = s.cap ∧ t.asw = s.asw ∧ t.responses.tail = s.responses
        ∧ PortsUnchanged s t ∧ SpacesUnchanged s t)
    ∧ ((∃ f x, i = .inv f x) →
      t.cap = s.cap ∧ t.asw = s.asw ∧ t.responses.tail = s.responses ∧ PortsUnchanged s t ∧ SpacesUnchanged s t)

/-! ## Unit U2: the capture unit -/

/-- 42_capture.md R161: CRESET, in every state. -/
def Obligations.CresetPrecharges : Prop :=
  ∀ (mode : Bool) (s : State),
    exec (.creset mode) s
      = .next
        { s with
          cap.mode := mode, cap.senseOe := true, cap.senseLvl := (if mode = false then true else false)
          cap.edge := (if mode = false then .falling else .rising)
          cap.tcnt := 0, cap.tdiv := 0, cap.cie := false, cap.cstate := .ready
          responses := { status := .ok, value := 0 } :: s.responses }

/-- 42_capture.md R162: CSTART begins a capture in every state with its operand as the divider, clears no count and
reads no `PRESC`; prescaler 0 is answered ILLEGAL and changes nothing. -/
def Obligations.CstartBeginsACapture : Prop :=
  ∀ (p : Nibble) (s : State),
    (p.toNat = 0 →
        exec (.cstart p) s = .next { s with responses := { status := .illegal, value := 0 } :: s.responses })
      ∧ (p.toNat ≠ 0 →
        exec (.cstart p) s
          = .next
            { s with
              cap.cstate := .sampling, cap.cie := true, cap.tdiv := p, cap.senseOe := false
              responses := { status := .ok, value := 0 } :: s.responses })

/-- 42_capture.md R170: the issue step of CGET starts with the current prescaler, remembers it, closes the port,
and gives no response, in every state. -/
def Obligations.CgetIssueStartsWithThePrescaler : Prop :=
  ∀ s : State,
    exec .cget s
      = .next
        { s with
          cap.gpUsed := s.cap.presc, cap.cstate := .sampling, cap.cie := true, cap.tdiv := s.cap.presc
          cap.senseOe := false, cap.gpend := true }

/-- 42_capture.md R171 and R172: the completion step of CGET, enabled when `GPEND = 1` and `CSTATE != Sampling`,
answers the sentinel after an overflow and else `RAW` over `P - 1`, moves the prescaler one step (up to 15, down to 1,
or not at all), opens the port, and leaves the rest; where it is not enabled, the sequencer's turn changes nothing.
`P = GP_USED` lies in 1 to 15 (R24). -/
def Obligations.CgetCompletionAnswersTheSample : Prop :=
  ∀ (s : State) (rest : List Move), s.moves = .sequencer :: rest → s.rst = false →
    (s.cap.gpend = true → s.cap.cstate ≠ .sampling → 1 ≤ s.cap.gpUsed.toNat →
      ∃ (v : Word32) (p : Nibble),
        step s
            = .next
              { s with
                moves := rest, cap.presc := p, cap.gpend := false
                responses := { status := .ok, value := v } :: s.responses }
          ∧ (s.cap.cstate = .completeOverflow →
              v.toNat = 0xFFFF ∧ p.toNat = min (s.cap.gpUsed.toNat + 1) 15)
          ∧ (s.cap.cstate ≠ .completeOverflow →
              v.toNat = s.cap.raw.toNat * 256 + (s.cap.gpUsed.toNat - 1)
                ∧ (s.cap.raw.toNat < s.params.uthr.toNat → p.toNat = max (s.cap.gpUsed.toNat - 1) 1)
                ∧ (s.params.uthr.toNat ≤ s.cap.raw.toNat → p = s.cap.presc)))
      ∧ (s.cap.gpend = false ∨ s.cap.cstate = .sampling → step s = .next { s with moves := rest })

/-- 42_capture.md R173: CSTAT answers the fields at the places of the table, and writes no state. -/
def Obligations.CstatAnswersTheStatusWord : Prop :=
  ∀ s : State, ∃ v : Word32,
    exec .cstat s = .next { s with responses := { status := .ok, value := v } :: s.responses }
      ∧ v.toNat
        = (match s.cap.cstate with
            | .idle => 0
            | .ready => 1
            | .sampling => 2
            | .complete => 3
            | .completeOverflow => 4)
          + s.cap.presc.toNat * 2 ^ 4 + s.cap.raw.toNat * 2 ^ 8 + s.cap.tdiv.toNat * 2 ^ 16
          + s.cap.cie.toNat * 2 ^ 20 + s.cap.mode.toNat * 2 ^ 21 + s.cap.senseOe.toNat * 2 ^ 22
          + s.cap.senseLvl.toNat * 2 ^ 23 + s.cap.tcnt.toNat * 2 ^ 24

/-- 10_state.md R36: every output but the response port, as a function of state. -/
def Obligations.OutputsAreFunctionsOfState : Prop :=
  ∀ s : State,
    (senseOeOut s = true ↔ s.cap.senseOe = true) ∧ (senseLvlOut s = true ↔ s.cap.senseLvl = true)
      ∧ (cmpEdgeSelOut s = true ↔ s.cap.edge = .rising) ∧ (cmpIeOut s = true ↔ s.cap.cie = true)
      ∧ (tmrRunOut s = true ↔ s.cap.tdiv.toNat ≠ 0) ∧ (tmrDivOut s).toNat = s.cap.tdiv.toNat
      ∧ (idleOut s = true ↔ s.cap.gpend = true ∧ s.cap.cstate = .sampling)
      ∧ (cmdReady s = true ↔ s.cap.gpend = false ∧ s.rst = false)
      ∧ (nvmRieOut s = true ↔ s.params.hasAsw = true ∧ s.asw.rie = true)

/-- 42_capture.md R176: a comparator edge in Sampling, armed, latches the count, stops the timer and completes; any
other one changes nothing. -/
def Obligations.ComparatorEdgeLatchesTheCount : Prop :=
  ∀ (s : State) (rest : List Move), s.moves = .cmp :: rest → s.rst = false →
    (s.cap.cie = true → s.cap.cstate = .sampling →
        step s
          = .next { s with moves := rest, cap.raw := s.cap.tcnt, cap.tdiv := 0, cap.cstate := .complete })
      ∧ (s.cap.cie = false ∨ s.cap.cstate ≠ .sampling → step s = .next { s with moves := rest })

/-- 42_capture.md R178 and R179: a timer clock counts; taken at 0xFF it wraps, and while Sampling latches the
sentinel, stops the timer and overflows; while the timer is stopped it changes nothing. -/
def Obligations.TimerClockCountsAndOverflows : Prop :=
  ∀ (s : State) (rest : List Move), s.moves = .tick :: rest → s.rst = false →
    (s.cap.tdiv.toNat ≠ 0 → s.cap.tcnt.toNat ≠ 0xFF →
        ∃ c : Byte, step s = .next { s with moves := rest, cap.tcnt := c } ∧ c.toNat = s.cap.tcnt.toNat + 1)
      ∧ (s.cap.tdiv.toNat ≠ 0 → s.cap.tcnt.toNat = 0xFF → s.cap.cstate = .sampling →
        step s
          = .next
            { s with
              moves := rest, cap.tcnt := 0, cap.raw := 0xFF, cap.tdiv := 0
              cap.cstate := .completeOverflow })
      ∧ (s.cap.tdiv.toNat ≠ 0 → s.cap.tcnt.toNat = 0xFF → s.cap.cstate ≠ .sampling →
        step s = .next { s with moves := rest, cap.tcnt := 0 })
      ∧ (s.cap.tdiv.toNat = 0 → step s = .next { s with moves := rest })

/-- The frame of the four commands of U2: CSTAT changes no register; CRESET leaves the registers R161 does not
name; CSTART and CGET leave those R162 and R170 do not name, among them the count; none touches U1, U3 or a space. -/
def Obligations.CaptureCommandsFrame : Prop :=
  ∀ (i : Instr) (s t : State), exec i s = .next t →
    (i = .cstat → t.cap = s.cap ∧ t.responses.tail = s.responses)
      ∧ ((∃ m, i = .creset m) →
        t.cap.raw = s.cap.raw ∧ t.cap.presc = s.cap.presc ∧ t.cap.gpend = s.cap.gpend
          ∧ t.cap.gpUsed = s.cap.gpUsed ∧ t.responses.tail = s.responses)
      ∧ ((∃ p, i = .cstart p) →
        t.cap.raw = s.cap.raw ∧ t.cap.presc = s.cap.presc ∧ t.cap.tcnt = s.cap.tcnt ∧ t.cap.mode = s.cap.mode
          ∧ t.cap.edge = s.cap.edge ∧ t.cap.senseLvl = s.cap.senseLvl ∧ t.cap.gpend = s.cap.gpend
          ∧ t.cap.gpUsed = s.cap.gpUsed ∧ t.responses.tail = s.responses)
      ∧ (i = .cget →
        t.cap.raw = s.cap.raw ∧ t.cap.presc = s.cap.presc ∧ t.cap.tcnt = s.cap.tcnt ∧ t.cap.mode = s.cap.mode
          ∧ t.cap.edge = s.cap.edge ∧ t.cap.senseLvl = s.cap.senseLvl ∧ t.responses = s.responses)
      ∧ (i = .cstat ∨ (∃ m, i = .creset m) ∨ (∃ p, i = .cstart p) ∨ i = .cget →
        t.inv = s.inv ∧ t.asw = s.asw ∧ PortsUnchanged s t ∧ SpacesUnchanged s t)

/-- The frame of the two capture events: a comparator edge and a timer clock change at most `RAW`, `TCNT`, `TDIV` and
`CSTATE`; a comparator edge leaves the count too. -/
def Obligations.CaptureEventsFrame : Prop :=
  ∀ (s t : State) (m : Move) (rest : List Move), s.moves = m :: rest → m = .cmp ∨ m = .tick → step s = .next t →
    t = { s with
          moves := rest, cap.raw := t.cap.raw, cap.tcnt := t.cap.tcnt, cap.tdiv := t.cap.tdiv
          cap.cstate := t.cap.cstate }
      ∧ (m = .cmp → t.cap.tcnt = s.cap.tcnt)

/-- A capture always terminates (42_capture.md R180): whatever timer clocks, comparator edges, storage pulses,
sequencer turns, source changes and, for a capture begun by CSTART, words of other commands come, once at least
`256 - TCNT` timer clocks are among them the state is Complete or CompleteOverflow, and after the sequencer's next turn
no CGET is pending: one that was has given its one response, with status OK. Fairness of TICK is the premise that the clocks come (log 19). The sequencer's turn stands in the
schedule, or the schedule is empty, where the turn is the model's choice (log 6). -/
def Obligations.CaptureAlwaysTerminates : Prop :=
  ∀ (s : State) (ms tail : List Move), s.cap.cstate = .sampling → s.cap.tdiv.toNat ≠ 0 → s.rst = false →
    s.moves = ms ++ tail → tail = [] ∨ (∃ rest, tail = .sequencer :: rest) →
    (∀ m ∈ ms, m ∈ [Move.tick, Move.cmp, Move.srdy, Move.sequencer] ∨ (∃ a b, m = .sourcePut a b)
      ∨ (s.cap.gpend = false ∧ s.held = none ∧ ∃ w, m = .word w ∧ w.toNat / 2 ^ 24 ∉ [0x10, 0x11, 0x12])) →
    256 - s.cap.tcnt.toNat ≤ ms.count .tick →
      ∃ t : State, Sys2Proof.core.run (ms.length + 1) s = .next t
        ∧ (t.cap.cstate = .complete ∨ t.cap.cstate = .completeOverflow) ∧ t.cap.gpend = false
        ∧ (s.cap.gpend = true → ∃ v : Word32, t.responses = { status := .ok, value := v } :: s.responses)

/-- 42_capture.md R182: the sample answered for Complete is `{RAW, 0000, P-1}`, with bits 7 to 4 zero,
so it is never 0xFFFF; 0xFFFF is answered only for CompleteOverflow. -/
def Obligations.SampleIsNeverTheSentinel : Prop :=
  ∀ (s t : State) (rest : List Move), s.moves = .sequencer :: rest → s.rst = false →
    s.cap.gpend = true → 1 ≤ s.cap.gpUsed.toNat →
    s.cap.cstate = .complete ∨ s.cap.cstate = .completeOverflow → step s = .next t →
      ∃ r : Response, t.responses = r :: s.responses
        ∧ (s.cap.cstate = .complete →
            r.value.toNat = s.cap.raw.toNat * 256 + (s.cap.gpUsed.toNat - 1) ∧ r.value.toNat / 16 % 16 = 0)
        ∧ (r.value.toNat = 0xFFFF ↔ s.cap.cstate = .completeOverflow)

/-- The capture outcomes of 42_capture.md R183, as runs: after CRESET (count zero) CGET is issued, `C` timer clocks
come, the comparator trips, the sequencer completes: the sample is `C` over `P - 1` and the next prescaler is
`max(P-1, 1)` when `C` is below the threshold. -/
def Obligations.CaptureOutcomeBeforeOverflow : Prop :=
  ∀ (s : State) (c : Nat) (rest : List Move), c ≤ 255 → s.cap.tcnt.toNat = 0 → 1 ≤ s.cap.presc.toNat →
    s.cap.gpend = false → s.rst = false → s.held = none →
    s.moves = .word 0x12000000 :: (List.replicate c .tick ++ .cmp :: .sequencer :: rest) →
      ∃ t : State, Sys2Proof.core.run (c + 3) s = .next t
        ∧ (∃ v : Word32, t.responses = { status := .ok, value := v } :: s.responses
            ∧ v.toNat = c * 256 + (s.cap.presc.toNat - 1))
        ∧ t.cap.cstate = .complete ∧ t.cap.raw.toNat = c ∧ t.moves = rest
        ∧ (c < s.params.uthr.toNat → t.cap.presc.toNat = max (s.cap.presc.toNat - 1) 1)
        ∧ (s.params.uthr.toNat ≤ c → t.cap.presc = s.cap.presc)

/-- The overflow outcome of 42_capture.md R183, as a run: after CRESET (count zero) CGET is issued and 256 timer
clocks come before any comparator edge: the sample is the sentinel and the next prescaler is `min(P+1, 15)`. -/
def Obligations.CaptureOutcomeOnOverflow : Prop :=
  ∀ (s : State) (rest : List Move), s.cap.tcnt.toNat = 0 → 1 ≤ s.cap.presc.toNat →
    s.cap.gpend = false → s.rst = false → s.held = none →
    s.moves = .word 0x12000000 :: (List.replicate 256 .tick ++ .sequencer :: rest) →
      ∃ t : State, Sys2Proof.core.run 258 s = .next t
        ∧ t.responses = { status := .ok, value := 0x0000FFFF } :: s.responses
        ∧ t.cap.cstate = .completeOverflow ∧ t.cap.raw.toNat = 0xFF ∧ t.cap.tcnt.toNat = 0 ∧ t.moves = rest
        ∧ t.cap.presc.toNat = min (s.cap.presc.toNat + 1) 15

/-- 60_exceptions.md R235: at the overflow boundary both orders of the two events are admitted; the first decides,
the second is ignored; the raw sample is 0xFF in both. -/
def Obligations.EitherEventFirstAtTheBoundary : Prop :=
  ∀ (s : State) (rest : List Move), s.rst = false → s.cap.cstate = .sampling → s.cap.cie = true →
    s.cap.tdiv.toNat ≠ 0 → s.cap.tcnt.toNat = 0xFF →
      (s.moves = .cmp :: .tick :: rest →
          Sys2Proof.core.run 2 s
            = .next
              { s with moves := rest, cap.raw := 0xFF, cap.tdiv := 0, cap.cstate := .complete })
        ∧ (s.moves = .tick :: .cmp :: rest →
          Sys2Proof.core.run 2 s
            = .next
              { s with
                moves := rest, cap.raw := 0xFF, cap.tcnt := 0, cap.tdiv := 0
                cap.cstate := .completeOverflow })

/-- `CSTATE` changes only by the transitions of 42_capture.md R160 (and by hardware reset, 70_reset_and_hazards.md
R260): CRESET to Ready; CSTART with prescaler 1 to 15 and CGET to Sampling; in Sampling only, an armed comparator edge
to Complete and a timer clock at 0xFF to CompleteOverflow. The premise says what the port may hold (log 7); that reset
takes effect at its assertion is log 13. -/
def Obligations.OnlyTheseTransitionsOfTheCaptureState : Prop :=
  ∀ s t : State, PortInv s → step s = .next t → t.cap.cstate ≠ s.cap.cstate →
    ∃ (m : Move) (rest : List Move), s.moves = m :: rest
      ∧ ((t.cap.cstate = .ready ∧ ∃ w mode, m = .word w ∧ decode s.params.hasAsw [w] = .ok (.creset mode) [])
        ∨ (t.cap.cstate = .sampling ∧ ∃ w, m = .word w
            ∧ ((∃ p : Nibble, p.toNat ≠ 0 ∧ decode s.params.hasAsw [w] = .ok (.cstart p) [])
              ∨ decode s.params.hasAsw [w] = .ok .cget []))
        ∨ (t.cap.cstate = .complete ∧ s.cap.cstate = .sampling ∧ s.cap.cie = true ∧ m = .cmp)
        ∨ (t.cap.cstate = .completeOverflow ∧ s.cap.cstate = .sampling ∧ s.cap.tcnt.toNat = 0xFF ∧ m = .tick)
        ∨ (t.cap.cstate = .idle ∧ (m = .assertReset ∨ m = .releaseReset)))

/-- "The only writer is the completion step of CGET" (10_state.md R24; hardware reset apart): any other step leaves
`PRESC`, and the completion step moves it by at most one. -/
def Obligations.OnlyTheCompletionStepMovesThePrescaler : Prop :=
  ∀ s t : State, CaptureInv s.cap → step s = .next t → t.cap.presc ≠ s.cap.presc →
    (s.cap.gpend = true ∧ s.cap.cstate ≠ .sampling ∧ t.cap.gpend = false ∧ s.moves.head?.getD .sequencer = .sequencer
        ∧ (t.cap.presc.toNat = s.cap.presc.toNat + 1 ∨ t.cap.presc.toNat + 1 = s.cap.presc.toNat))
      ∨ (s.moves.head? = some .assertReset ∨ s.moves.head? = some .releaseReset)

/-! ## Unit U3: the storage writer -/

/-- 43_storage_writer.md R201: SWRITE while a transfer is in flight answers BUSY and leaves it untouched; with
length 0 it answers OK and changes nothing; otherwise it records the descriptor and enables the ready interrupt. -/
def Obligations.SwriteRecordsTheDescriptor : Prop :=
  ∀ (src dst : Half) (len : Byte) (s : State),
    (s.asw.busy = true →
        exec (.swrite src dst len) s
          = .next { s with responses := { status := .busy, value := 0 } :: s.responses })
      ∧ (s.asw.busy = false → len.toNat = 0 →
        exec (.swrite src dst len) s
          = .next { s with responses := { status := .ok, value := 0 } :: s.responses })
      ∧ (s.asw.busy = false → len.toNat ≠ 0 →
        exec (.swrite src dst len) s
          = .next
            { s with
              asw.src := src, asw.dst := dst, asw.len := len, asw.rem := len, asw.busy := true, asw.rie := true
              responses := { status := .ok, value := 0 } :: s.responses })

/-- 43_storage_writer.md R202: SDONE answers 1 when `BUSY = 0` and else 0, and writes no state. -/
def Obligations.SdoneReadsTheBusyFlag : Prop :=
  ∀ s : State, ∃ v : Word32,
    exec .sdone s = .next { s with responses := { status := .ok, value := v } :: s.responses }
      ∧ (s.asw.busy = false → v.toNat = 1) ∧ (s.asw.busy = true → v.toNat = 0)

/-- The frame of the two commands of U3: SDONE changes no register; neither touches U1, U2 or a byte of either
space. -/
def Obligations.StorageCommandsFrame : Prop :=
  ∀ (i : Instr) (s t : State), exec i s = .next t → i = .sdone ∨ (∃ src dst len, i = .swrite src dst len) →
    t.inv = s.inv ∧ t.cap = s.cap ∧ t.responses.tail = s.responses ∧ PortsUnchanged s t ∧ SpacesUnchanged s t
      ∧ (i = .sdone → t.asw = s.asw)

/-- 43_storage_writer.md R206: a ready pulse while the interrupt is enabled copies exactly one byte, from
`SRC + (LEN - REM)` to `DST + (LEN - REM)` modulo 2^16, decrements `REM`, and with the last byte clears `RIE` and
`BUSY`; every other byte of `NVM`, every byte of the source space and every other register stay; while it is disabled,
or in a block without U3 (log 18), it changes nothing. A byte the host has never put reads as the free value of its address (the model's choice,
log 12). -/
def Obligations.StorageReadyMovesOneByte : Prop :=
  ∀ (s : State) (rest : List Move), s.moves = .srdy :: rest → s.rst = false →
    (s.params.hasAsw = true → s.asw.rie = true → 1 ≤ s.asw.rem.toNat → s.asw.rem.toNat ≤ s.asw.len.toNat →
        ∀ (a d : Nat) (b : Byte),
        a = (s.asw.src.toNat + (s.asw.len.toNat - s.asw.rem.toNat)) % 65536 →
        d = (s.asw.dst.toNat + (s.asw.len.toNat - s.asw.rem.toNat)) % 65536 →
        b = (readByte s.srcMem a).getD (Config.srcUnwritten (BitVec.ofNat 16 a)) →
        ∃ t : State, step s = .next t
          ∧ readByte t.nvm d = some b ∧ (∀ x, x ≠ d → readByte t.nvm x = readByte s.nvm x)
          ∧ t.nvmLog = { off := BitVec.ofNat 16 d, byte := b } :: s.nvmLog
          ∧ t.asw.rem.toNat = s.asw.rem.toNat - 1
          ∧ t.asw.src = s.asw.src ∧ t.asw.dst = s.asw.dst ∧ t.asw.len = s.asw.len
          ∧ (s.asw.rem.toNat = 1 → t.asw.rie = false ∧ t.asw.busy = false)
          ∧ (s.asw.rem.toNat ≠ 1 → t.asw.rie = s.asw.rie ∧ t.asw.busy = s.asw.busy)
          ∧ t.srcMem = s.srcMem ∧ t.inv = s.inv ∧ t.cap = s.cap ∧ t.params = s.params ∧ t.rst = s.rst
          ∧ t.held = s.held ∧ t.responses = s.responses ∧ t.moves = rest ∧ t.draws = s.draws)
      ∧ (s.asw.rie = false ∨ s.params.hasAsw = false → step s = .next { s with moves := rest })

/-- 43_storage_writer.md R207: a transfer of length `n` takes exactly `n` ready pulses, performs exactly the writes
`NVM[DST + i] <- SRCMEM[SRC + i]` in that order (addresses modulo 2^16), each source byte read at its own step, and
then is complete. Any moves but a reset may come between the pulses (20_memory.md R65): other events, changes of the
source space, and command words. The run reaches its end where no word comes between; and wherever it reaches its end
it has done this. A byte the host has never put reads as the free value of its address (the model's choice, log 12);
a word presented to a closed port ends the run (log 8). -/
def Obligations.TransferCompletesInItsLength : Prop :=
  ∀ (s : State) (ms rest : List Move), s.params.hasAsw = true → s.rst = false → s.asw.busy = true → s.asw.rie = true →
    1 ≤ s.asw.len.toNat → s.asw.rem = s.asw.len →
    s.moves = ms ++ .srdy :: rest → ms.count .srdy + 1 = s.asw.len.toNat → Move.assertReset ∉ ms →
      ((∀ w, Move.word w ∉ ms) → ∃ t : State, Sys2Proof.core.run (ms.length + 1) s = .next t)
        ∧ ∀ t : State, Sys2Proof.core.run (ms.length + 1) s = .next t →
          t.asw.busy = false ∧ t.asw.rie = false ∧ t.asw.rem.toNat = 0 ∧ t.moves = rest
            ∧ (∀ x, (∀ i, i < s.asw.len.toNat → x ≠ byteAddr s.asw.dst i) → readByte t.nvm x = readByte s.nvm x)
            ∧ ∃ bytes : Nat → Byte,
              (∀ i, i < s.asw.len.toNat → readByte t.nvm (byteAddr s.asw.dst i) = some (bytes i))
                ∧ t.nvmLog
                  = ((List.range s.asw.len.toNat).map fun i =>
                      { off := BitVec.ofNat 16 (byteAddr s.asw.dst i), byte := bytes i : NvmWrite }).reverse ++ s.nvmLog
                ∧ ∀ k, k ≤ ms.length → ∃ u : State, Sys2Proof.core.run k s = .next u ∧ u.asw.busy = true
                    ∧ ((ms ++ [Move.srdy])[k]? = some .srdy →
                      bytes ((ms.take k).count .srdy) = sourceByte u ((ms.take k).count .srdy))

/-- The writes of a transfer come in ascending order of index (20_memory.md R67, item 4), whatever other steps fall
between them (R65): while it is in flight, the newest `LEN - REM` writes of the record are those of its first
`LEN - REM` bytes, in order; every step of every agent keeps that. -/
def Obligations.EveryStepKeepsTheOrderOfWrites : Prop :=
  ∀ s t : State, TransferInv s → step s = .next t → TransferInv t

/-- The non-volatile space and its record change only by a ready pulse while `RIE = 1` in a block with U3, and the
source space only by the host (20_memory.md R60 to R62): every other step leaves every byte. -/
def Obligations.OnlyStorageReadyWritesTheNonVolatileSpace : Prop :=
  ∀ s t : State, step s = .next t →
    ((∀ a, readByte t.nvm a = readByte s.nvm a) ∧ t.nvmLog = s.nvmLog
        ∨ s.moves.head? = some .srdy ∧ s.params.hasAsw = true ∧ s.asw.rie = true ∧ s.rst = false)
      ∧ ((∀ a, readByte t.srcMem a = readByte s.srcMem a) ∨ ∃ a b, s.moves.head? = some (.sourcePut a b))

/-- 20_memory.md R61: the host may put a byte into the source space at any step; it then reads there, every other
byte and all else stay. One byte at a move is the model's form of it (log 17). -/
def Obligations.HostPutsASourceByte : Prop :=
  ∀ (s : State) (a : Half) (b : Byte) (rest : List Move), s.moves = .sourcePut a b :: rest →
    ∃ m : Memory, step s = .next { s with moves := rest, srcMem := m }
      ∧ readByte m a.toNat = some b ∧ ∀ x, x ≠ a.toNat → readByte m x = readByte s.srcMem x

/-! ## Reset, invariants and the whole machine -/

/-- The values after hardware reset: those that 10_state.md R35 gives the registers, for every value of the open
parameters and of what R35 leaves unspecified. The rest is the model's: `rst` released (log 13), nothing held by the
port (log 7), both spaces with nothing listed and nothing scheduled (logs 12 and 14: the spaces and the schedule at
power-on), and `State.reset` as that state for the constants of Config (logs 1 to 4: U3 present, the threshold, the
initial prescaler and the unspecified elements without a value). -/
def Obligations.ResetValues : Prop :=
  (∀ (p : Params) (u : Unspecified) (s : State), s = State.resetWith p u →
      s.cap.cstate = .idle ∧ s.cap.presc.toNat = p.prescStart.val + 1 ∧ s.cap.tcnt = 0 ∧ s.cap.tdiv = 0
        ∧ s.cap.cie = false ∧ s.cap.mode = false ∧ s.cap.edge = .falling ∧ s.cap.senseOe = false
        ∧ s.cap.senseLvl = false ∧ s.cap.gpend = false ∧ s.asw.busy = false ∧ s.asw.rie = false
        ∧ s.params = p ∧ s.rst = false ∧ s.held = none ∧ s.srcMem = [] ∧ s.nvm = [] ∧ s.moves = [])
    ∧ State.reset = State.resetWith Config.params (Unspecified.draw 0)
    ∧ 1 ≤ State.reset.cap.presc.toNat ∧ State.reset.cap.presc.toNat ≤ 15 ∧ State.reset.params.hasAsw = true

/-- 70_reset_and_hazards.md R262: asserting `rst` abandons whatever is in progress: no response is given, no CGET is
pending, the capture is dropped, the transfer stops with what it has written; neither space changes. That a held word
0 of SWRITE is dropped too is the model's inference (log 7, DEDUCED). -/
def Obligations.ResetAbandonsWhatIsInProgress : Prop :=
  ∀ (s : State) (rest : List Move), s.moves = .assertReset :: rest →
    ∃ t : State, step s = .next t ∧ t.responses = s.responses ∧ t.cap.gpend = false ∧ t.cap.cstate = .idle
      ∧ t.cap.tdiv = 0 ∧ t.asw.busy = false ∧ t.asw.rie = false ∧ t.held = none ∧ t.nvmLog = s.nvmLog
      ∧ SpacesUnchanged s t

/-- Hardware reset as 70_reset_and_hazards.md R260 describes it: asserting it sets the elements R35 gives values
for and closes the port; while it is asserted every event pulse and sequencer turn is dropped and no word is accepted
(refused, log 8); releasing it leaves the block in that state with the port open. R260 speaks of the outputs while
`rst` is asserted; that the registers take their values already then is the model's inference (log 13), as is that a
held word 0 is dropped (log 7). -/
def Obligations.ResetHoldsTheBlock : Prop :=
  (∀ (s : State) (m : Move) (rest : List Move), s.moves = m :: rest →
      m = .assertReset ∨ (m = .releaseReset ∧ s.rst = true) →
        ∃ t : State, step s = .next t ∧ t.params = s.params ∧ t.moves = rest
          ∧ t.rst = (if m = .assertReset then true else false)
          ∧ t.cap.cstate = .idle ∧ t.cap.presc.toNat = s.params.prescStart.val + 1 ∧ t.cap.tcnt = 0
          ∧ t.cap.tdiv = 0 ∧ t.cap.cie = false ∧ t.cap.mode = false ∧ t.cap.edge = .falling
          ∧ t.cap.senseOe = false ∧ t.cap.senseLvl = false ∧ t.cap.gpend = false ∧ t.asw.busy = false
          ∧ t.asw.rie = false ∧ t.held = none ∧ SpacesUnchanged s t
          ∧ senseOeOut t = false ∧ senseLvlOut t = false ∧ cmpEdgeSelOut t = false ∧ cmpIeOut t = false
          ∧ tmrRunOut t = false ∧ tmrDivOut t = 0 ∧ idleOut t = false ∧ nvmRieOut t = false
          ∧ cmdReady t = (if m = .assertReset then false else true))
    ∧ ∀ (s : State) (m : Move) (rest : List Move), s.rst = true → s.moves = m :: rest →
        (m ∈ [Move.cmp, Move.tick, Move.srdy, Move.sequencer] → step s = .next { s with moves := rest })
          ∧ ∀ w, m = .word w → step s = .refused .commandWhileNotReady

/-- The invariant (42_capture.md R181; what CRESET leaves, R161; 10_state.md R32; 43_storage_writer.md R207;
20_memory.md R62; the canonical form of both spaces) and the order of writes hold after reset, whatever the parameters
and the unspecified elements. Its clauses on the held word and on the block in reset are the model's inferences (logs 7
and 13). -/
def Obligations.ResetStateMeetsTheInvariant : Prop :=
  (∀ (p : Params) (u : Unspecified), Inv (State.resetWith p u) ∧ TransferInv (State.resetWith p u))
    ∧ Inv State.reset ∧ TransferInv State.reset

/-- The invariant is kept by every step of every agent, from every state that meets it. Its clauses: 42_capture.md
R181; what CRESET leaves (R161); 10_state.md R32 and 43_storage_writer.md R207; 20_memory.md R62 and the canonical form
of both spaces; a held word is word 0 of a two-word command (30_encoding.md R82; log 7, DEDUCED); the registers while
`rst` is asserted (70_reset_and_hazards.md R260; log 13, DEDUCED). -/
def Obligations.EveryStepKeepsTheInvariant : Prop :=
  ∀ s t : State, Inv s → step s = .next t → Inv t

/-- The parameters are no state (10_state.md R34): no step changes them. -/
def Obligations.NoStepChangesTheParameters : Prop :=
  ∀ s t : State, step s = .next t → t.params = s.params

/-- The end of a run (44_host.md R225): in a state that meets the invariant, in which every command is issued and
answered, no CGET is pending, the timer is stopped and no transfer is in flight, every event, every sequencer turn and
the empty schedule (log 6) leave the state as it is, and the run stays over. -/
def Obligations.EndOfRunIsFinal : Prop :=
  ∀ s : State, Inv s → runOver s = true →
    (s.moves = [] → step s = .next s)
      ∧ ∀ (m : Move) (rest : List Move), s.moves = m :: rest →
          m ∈ [Move.cmp, Move.tick, Move.srdy, Move.sequencer] →
            step s = .next { s with moves := rest } ∧ runOver { s with moves := rest } = true

/-- The hazard of 70_reset_and_hazards.md R272: a start, by CSTART or by CGET, without a CRESET before it leaves the
count, so the overflow comes after `256 - TCNT` timer clocks; after a CRESET, after 256. CGET starts with `PRESC`,
which lies in 1 to 15 (10_state.md R24). -/
def Obligations.OverflowComesAfterTheRemainingCounts : Prop :=
  ∀ (s : State) (i : Instr) (rest : List Move),
    (∃ p : Nibble, p.toNat ≠ 0 ∧ i = .cstart p) ∨ (i = .cget ∧ 1 ≤ s.cap.presc.toNat) →
    s.rst = false → s.cap.gpend = false →
    ∃ t : State, exec i s = .next t
      ∧ ∀ k, k ≤ 256 - s.cap.tcnt.toNat →
          ∃ u : State, Sys2Proof.core.run k { t with moves := List.replicate k .tick ++ rest } = .next u
            ∧ (k < 256 - s.cap.tcnt.toNat → u.cap.cstate = .sampling ∧ u.cap.tcnt.toNat = s.cap.tcnt.toNat + k)
            ∧ (k = 256 - s.cap.tcnt.toNat →
              u.cap.cstate = .completeOverflow ∧ u.cap.raw.toNat = 0xFF ∧ u.cap.tdiv.toNat = 0)
end

