-- ==== Sys2Proof/Laws/Words.lean ====
section
/-! SUPPORT. The packet fields and the FixedPoint16 fields in numbers, and the opcode map's own facts. -/

namespace Sys2Proof.Laws

open Sys2Proof.Machine

/-- `op` is the top byte of word 0. -/
theorem opField_toNat (w : Word32) : (opField w).toNat = w.toNat / 2 ^ 24 := by
  simp only [opField, BitVec.extractLsb'_toNat, Nat.shiftRight_eq_div_pow]
  omega

/-- `b` is the third byte of word 0. -/
theorem bField_toNat (w : Word32) : (bField w).toNat = w.toNat / 2 ^ 16 % 2 ^ 8 := by
  simp only [bField, BitVec.extractLsb'_toNat, Nat.shiftRight_eq_div_pow]

/-- `a` is the low half of word 0. -/
theorem aField_toNat (w : Word32) : (aField w).toNat = w.toNat % 2 ^ 16 := by
  simp only [aField, BitVec.extractLsb'_toNat, Nat.shiftRight_zero]

/-- A packed word in numbers. -/
theorem packC32_toNat (o : Opcode) (b : Byte) (a : Half) :
    (packC32 o b a).toNat = o.code.toNat * 2 ^ 24 + b.toNat * 2 ^ 16 + a.toNat := by
  unfold packC32
  rw [BitVec.toNat_append, BitVec.toNat_append, ← Nat.shiftLeft_add_eq_or_of_lt a.isLt,
    ← Nat.shiftLeft_add_eq_or_of_lt b.isLt, Nat.shiftLeft_eq, Nat.shiftLeft_eq]
  ring

/-- The fields of a packed word are what was packed. -/
@[simp] theorem opField_packC32 (o : Opcode) (b : Byte) (a : Half) : opField (packC32 o b a) = o.code := by
  apply BitVec.eq_of_toNat_eq
  rw [opField_toNat, packC32_toNat]
  have := a.isLt; have := b.isLt; omega

@[simp] theorem bField_packC32 (o : Opcode) (b : Byte) (a : Half) : bField (packC32 o b a) = b := by
  apply BitVec.eq_of_toNat_eq
  rw [bField_toNat, packC32_toNat]
  have := a.isLt; have := b.isLt; omega

@[simp] theorem aField_packC32 (o : Opcode) (b : Byte) (a : Half) : aField (packC32 o b a) = a := by
  apply BitVec.eq_of_toNat_eq
  rw [aField_toNat, packC32_toNat]
  have := a.isLt; have := b.isLt; omega

/-- No two rows of the opcode map share a value of `op`. -/
theorem opcode_code_injective (o o' : Opcode) (h : o.code = o'.code) : o = o' := by
  cases o <;> cases o' <;> first | rfl | exact absurd h (by decide)

/-- Every row is in the list of rows. -/
theorem opcode_mem_all (o : Opcode) : o ∈ Opcode.all := by cases o <;> decide

/-- A row is found by its own value of `op`, in a block that has it. -/
theorem ofCode_code (hasAsw : Bool) (o : Opcode) (h : (hasAsw || !o.needsAsw) = true) :
    Opcode.ofCode hasAsw o.code = some o := by
  cases hasAsw <;> cases o <;> first | decide | exact absurd h (by decide)

/-- What is found has the value of `op` looked for, and exists in the block. -/
theorem ofCode_eq_some {hasAsw : Bool} {c : Byte} {o : Opcode} (h : Opcode.ofCode hasAsw c = some o) :
    o.code = c ∧ (hasAsw || !o.needsAsw) = true := by
  have := List.find?_some h
  simp only [Bool.and_eq_true, beq_iff_eq] at this
  exact ⟨this.2, this.1⟩

/-- What decoding does when `op` selects a row. -/
theorem decode_some {hasAsw : Bool} {w : Word32} {o : Opcode} (rest : List Word32)
    (h : Opcode.ofCode hasAsw (opField w) = some o) : decode hasAsw (w :: rest) = decodeOperands o w rest := by
  simp only [decode, h]

/-- What decoding does when `op` selects no row. -/
theorem decode_none {hasAsw : Bool} {w : Word32} (rest : List Word32)
    (h : Opcode.ofCode hasAsw (opField w) = none) :
    decode hasAsw (w :: rest) = .refused (.undefinedOpcode (opField w)) := by
  simp only [decode, h]

/-- A command has two words exactly when it is SWRITE of a block with U3 (R83). -/
theorem commandLength_eq_two {hasAsw : Bool} {w : Word32} :
    commandLength hasAsw w = 2 ↔ hasAsw = true ∧ opField w = Opcode.swrite.code := by
  unfold commandLength
  split
  · next h => simpa using h
  · next h => simpa using h

/-- SWRITE is selected exactly when the command has two words. -/
theorem ofCode_swrite_length {hasAsw : Bool} {w : Word32} (h : Opcode.ofCode hasAsw (opField w) = some .swrite) :
    commandLength hasAsw w = 2 := by
  have hs := ofCode_eq_some h
  exact commandLength_eq_two.2 ⟨by simpa [Opcode.needsAsw] using hs.2, hs.1.symm⟩

/-- Only SWRITE with word 1 missing decodes as incomplete. -/
theorem decodeOperands_incomplete {o : Opcode} {w : Word32} {rest : List Word32}
    (h : decodeOperands o w rest = .refused .incomplete) : o = .swrite ∧ rest = [] := by
  cases o
  case swrite =>
    cases rest with
    | nil => exact ⟨rfl, rfl⟩
    | cons a b => simp [decodeOperands] at h
  all_goals simp [decodeOperands] at h

/-- The significand of a word in numbers (10_state.md R21). -/
theorem sig_toNat (w : Half) : (sig w).toNat = w.toNat / 16 * 16 := by
  have h : ∀ n, n < 65536 → n &&& 0xFFF0 = n / 16 * 16 := by
    intro n hn
    apply Nat.eq_of_testBit_eq
    intro i
    have e : (0xFFF0 : Nat) = (2 ^ 12 - 1) <<< 4 := by decide
    rw [e, Nat.testBit_and, Nat.testBit_shiftLeft, Nat.testBit_two_pow_sub_one,
      show n / 16 * 16 = (n >>> 4) <<< 4 by rw [Nat.shiftLeft_eq, Nat.shiftRight_eq_div_pow],
      Nat.testBit_shiftLeft, Nat.testBit_shiftRight]
    by_cases h4 : 4 ≤ i
    · rw [Nat.add_sub_cancel' h4]
      by_cases h16 : i < 16
      · simp [h4, show i - 4 < 12 by omega]
      · have : n.testBit i = false :=
          Nat.testBit_lt_two_pow (hn.trans_le (Nat.pow_le_pow_right (n := 2) Nat.two_pos (by omega : 16 ≤ i)))
        simp [this]
    · simp [h4]
  simpa [sig, Config.sigMask] using h w.toNat w.isLt

/-- The exponent of a word in numbers (R21). -/
theorem expo_toNat (w : Half) : (expo w).toNat = w.toNat % 16 := by
  have : (expo w).toNat = w.toNat &&& (2 ^ 4 - 1) := by simp [expo, Config.expMask]
  rw [this, Nat.and_two_pow_sub_one_eq_mod]

/-- A packed FixedPoint16 word in numbers (40_fixedpoint.md R110). -/
theorem pack_toNat (s : Half) (e : Nibble) : (pack s e).toNat = s.toNat / 16 * 16 + e.toNat := by
  have h1 : (pack s e).toNat = (sig s).toNat ||| e.toNat := by
    have := e.isLt
    simp only [pack, sig, BitVec.toNat_or, BitVec.toNat_setWidth]
    rw [Nat.mod_eq_of_lt (by omega)]
  rw [h1, sig_toNat, show s.toNat / 16 * 16 = (s.toNat / 16) <<< 4 by rw [Nat.shiftLeft_eq],
    ← Nat.shiftLeft_add_eq_or_of_lt e.isLt]

/-- Zero extension keeps the number. -/
@[simp] theorem zext32_toNat (v : Half) : (zext32 v).toNat = v.toNat := by
  have := v.isLt
  simp only [zext32, BitVec.toNat_setWidth]
  omega

end Sys2Proof.Laws
end

