-- ==== Sys2Proof/Laws/Fpm.lean ====
section
/-! SUPPORT. The loops of `normalize` (40_fixedpoint.md R114) and one iteration of the restoring division
(41_reciprocal.md R142), in numbers. -/

namespace Sys2Proof.Laws

open Sys2Proof.Machine

/-- `k` right shifts divide by `2^k`. -/
theorem shiftRightTurns_toNat (k : Nat) (s : Half) : (shiftRightTurns k s).toNat = s.toNat / 2 ^ k := by
  induction k generalizing s with
  | zero => simp [shiftRightTurns]
  | succ k ih =>
    rw [shiftRightTurns, ih, BitVec.toNat_ushiftRight, Nat.shiftRight_eq_div_pow, Nat.div_div_eq_div_mul,
      ← pow_add, Nat.add_comm 1 k]

/-- `k` left shifts that lose nothing multiply by `2^k`. -/
theorem shiftLeftTurns_some (k : Nat) (s : Half) (h : s.toNat * 2 ^ k < 65536) :
    ∃ s', shiftLeftTurns k s = some s' ∧ s'.toNat = s.toNat * 2 ^ k := by
  induction k generalizing s with
  | zero => exact ⟨s, rfl, by simp⟩
  | succ k ih =>
    have hp : 1 ≤ 2 ^ k := Nat.one_le_two_pow
    have h2 : s.toNat * 2 < 65536 := by rw [pow_succ] at h; nlinarith
    have hm : s.msb = false := by rw [BitVec.msb_eq_false_iff_two_mul_lt]; omega
    have ht : (s <<< 1).toNat = s.toNat * 2 := by
      rw [BitVec.toNat_shiftLeft, Nat.shiftLeft_eq, pow_one]; omega
    obtain ⟨s', e, v⟩ := ih (s <<< 1) (by rw [ht, Nat.mul_assoc, ← pow_succ']; exact h)
    exact ⟨s', by simp [shiftLeftTurns, hm, e], by rw [v, ht, Nat.mul_assoc, ← pow_succ']⟩

/-- `k` left shifts that would lose a bit saturate. -/
theorem shiftLeftTurns_none (k : Nat) (s : Half) (h : 65536 ≤ s.toNat * 2 ^ k) :
    shiftLeftTurns k s = none := by
  induction k generalizing s with
  | zero => have := s.isLt; omega
  | succ k ih =>
    rw [shiftLeftTurns]
    split
    · rfl
    · next hm =>
      have h2 := BitVec.msb_eq_false_iff_two_mul_lt.1 (by simpa using hm)
      have ht : (s <<< 1).toNat = s.toNat * 2 := by
        rw [BitVec.toNat_shiftLeft, Nat.shiftLeft_eq, pow_one]; omega
      exact ih _ (by rw [ht, Nat.mul_assoc, ← pow_succ']; exact h)

/-- The shifted significand is exact (R117). -/
theorem shiftedSig_toNat (w : Half) :
    (shiftedSig w).toNat = w.toNat / 16 * 16 * 2 ^ (w.toNat % 16) ∧ (shiftedSig w).toNat < 2 ^ 31 := by
  have hb : w.toNat / 16 * 16 * 2 ^ (w.toNat % 16) < 2 ^ 31 := by
    have hs : w.toNat / 16 * 16 < 2 ^ 16 := by have := w.isLt; omega
    have he : 2 ^ (w.toNat % 16) ≤ 2 ^ 15 := Nat.pow_le_pow_right Nat.two_pos (by omega)
    calc w.toNat / 16 * 16 * 2 ^ (w.toNat % 16) ≤ w.toNat / 16 * 16 * 2 ^ 15 := Nat.mul_le_mul_left _ he
      _ < 2 ^ 31 := by omega
  have : (shiftedSig w).toNat = w.toNat / 16 * 16 * 2 ^ (w.toNat % 16) := by
    rw [shiftedSig, BitVec.toNat_shiftLeft, zext32_toNat, sig_toNat, expo_toNat, Nat.shiftLeft_eq,
      Nat.mod_eq_of_lt (hb.trans (by decide))]
  exact ⟨this, this ▸ hb⟩

/-- The shifted remainder of one iteration before the comparison. -/
def shiftedRem (r : InvRegs) : Nat := 2 * r.rem.toNat + (if r.n.toNat = 0 then 1 else 0)

/-- One iteration in numbers, while the remainder is below the divisor and the count has room. -/
theorem divIter_toNat (r : InvRegs) (hr : r.rem.toNat < r.d.toNat ∨ r.rem.toNat = 0)
    (hd : r.d.toNat ≤ 65536) (hn : r.n.toNat < 63) :
    (divIter r).d = r.d ∧ (divIter r).n.toNat = r.n.toNat + 1
      ∧ (divIter r).rem.toNat
          = (if r.d.toNat ≤ shiftedRem r then shiftedRem r - r.d.toNat else shiftedRem r)
      ∧ (divIter r).q.toNat
          = (2 * r.q.toNat + (if r.d.toNat ≤ shiftedRem r then 1 else 0)) % 2 ^ 12 := by
  have hn1 : (r.n + 1).toNat = r.n.toNat + 1 := by
    rw [BitVec.toNat_add]; show (r.n.toNat + 1) % 64 = _; omega
  have hone : (r.n + 1 = 1) ↔ r.n.toNat = 0 := by
    rw [← BitVec.toNat_inj, hn1]; show r.n.toNat + 1 = 1 ↔ _; omega
  have hlt : 2 * r.rem.toNat + 1 < 2 ^ 17 := by omega
  have orOne : ∀ {w : Nat} (x : BitVec w), 2 * x.toNat + 1 < 2 ^ w →
      (x <<< 1 ||| 1#w).toNat = 2 * x.toNat + 1 := by
    intro w x hx
    have hw : 1 < 2 ^ w := by omega
    rw [BitVec.toNat_or, BitVec.toNat_shiftLeft, Nat.shiftLeft_eq, pow_one, BitVec.toNat_ofNat,
      Nat.mod_eq_of_lt hw, Nat.mod_eq_of_lt (by omega),
      show x.toNat * 2 = x.toNat <<< 1 by rw [Nat.shiftLeft_eq, pow_one],
      ← Nat.shiftLeft_add_eq_or_of_lt (by decide : 1 < 2 ^ 1), Nat.shiftLeft_eq, pow_one, Nat.mul_comm]
  have hrem : ((r.rem <<< 1) ||| (if r.n + 1 = 1 then 1 else 0)).toNat = shiftedRem r := by
    unfold shiftedRem
    by_cases h0 : r.n.toNat = 0
    · rw [if_pos (hone.2 h0), if_pos h0]; exact orOne r.rem hlt
    · rw [if_neg (fun h => h0 (hone.1 h)), if_neg h0]
      have : (r.rem <<< 1 ||| 0#17) = r.rem <<< 1 := by simp
      show (r.rem <<< 1 ||| 0#17).toNat = _
      rw [this, BitVec.toNat_shiftLeft, Nat.shiftLeft_eq]; omega
  have hq0 : (r.q <<< 1).toNat = 2 * r.q.toNat % 2 ^ 12 := by
    rw [BitVec.toNat_shiftLeft, Nat.shiftLeft_eq, pow_one, Nat.mul_comm]
  have hq1 : (r.q <<< 1 ||| 1).toNat = (2 * r.q.toNat + 1) % 2 ^ 12 := by
    have h : (r.q <<< 1 ||| 1).toNat = (r.q <<< 1).toNat ||| 1 := rfl
    rw [h, hq0, show 2 * r.q.toNat % 2 ^ 12 = (r.q.toNat % 2 ^ 11) <<< 1 by
        rw [Nat.shiftLeft_eq, pow_one]; omega,
      ← Nat.shiftLeft_add_eq_or_of_lt (by decide : 1 < 2 ^ 1), Nat.shiftLeft_eq]
    omega
  by_cases hc : r.d.toNat ≤ shiftedRem r
  · have hle : r.d ≤ (r.rem <<< 1) ||| (if r.n + 1 = 1 then 1 else 0) := by
      rw [BitVec.le_def, hrem]; exact hc
    have e : divIter r
        = { r with
            n := r.n + 1, rem := ((r.rem <<< 1) ||| (if r.n + 1 = 1 then 1 else 0)) - r.d
            q := r.q <<< 1 ||| 1 } := by
      simp only [divIter]; rw [if_pos hle]
    rw [e, if_pos hc, if_pos hc]
    exact ⟨rfl, hn1, by rw [BitVec.toNat_sub_of_le hle, hrem], hq1⟩
  · have hle : ¬ r.d ≤ (r.rem <<< 1) ||| (if r.n + 1 = 1 then 1 else 0) := by
      rw [BitVec.le_def, hrem]; exact hc
    have e : divIter r
        = { r with
            n := r.n + 1, rem := (r.rem <<< 1) ||| (if r.n + 1 = 1 then 1 else 0), q := r.q <<< 1 } := by
      simp only [divIter]; rw [if_neg hle]
    rw [e, if_neg hc, if_neg hc]
    exact ⟨rfl, hn1, hrem, by rw [hq0, Nat.add_zero]⟩

/-- The divisor in numbers (R141): it cannot wrap. -/
theorem divisor_toNat (f : Half) : (divisor f).toNat = f.toNat / 16 * 16 + 1 := by
  have := f.isLt
  rw [divisor, BitVec.toNat_add, BitVec.toNat_setWidth, sig_toNat]
  show (_ % 131072 + 1) % 131072 = _
  omega

/-- The significand is zero exactly for the sixteen words below 16 (10_state.md R22). -/
theorem sig_eq_zero_iff (f : Half) : sig f = 0 ↔ f.toNat < 16 := by
  rw [← BitVec.toNat_inj, sig_toNat]
  show f.toNat / 16 * 16 = 0 ↔ _
  omega

end Sys2Proof.Laws
end

