-- ==== Sys2Proof/Laws/Memory.lean ====
section
/-! SUPPORT. The laws of one address space: a byte put reads back, every other byte stays, and the canonical form
is kept, so that equal spaces are equal data. -/

namespace Sys2Proof.Laws

open Sys2Proof.Machine

/-- Reading the byte just put. -/
@[simp] theorem readByte_writeByte_same (m : Memory) (a : Nat) (b : Byte) :
    readByte (writeByte m a b) a = some b := by
  induction m with
  | nil => simp [writeByte, readByte]
  | cons c rest ih =>
    obtain ⟨k, c⟩ := c
    unfold writeByte
    split
    · simp [readByte]
    · split
      · simp [readByte]
      · next h => simp [readByte, h, ih]

/-- Reading any other byte. -/
theorem readByte_writeByte_other (m : Memory) {a x : Nat} (b : Byte) (h : x ≠ a) :
    readByte (writeByte m a b) x = readByte m x := by
  induction m with
  | nil => simp [writeByte, readByte, h]
  | cons c rest ih =>
    obtain ⟨k, c⟩ := c
    unfold writeByte
    split
    · simp [readByte, h]
    · split
      · next hk => subst hk; simp [readByte, h]
      · simp [readByte, ih]

/-- Every address of a space after a write is the written one or was there before. -/
theorem mem_writeByte {m : Memory} {a : Nat} {b : Byte} {c : Host.Cell} (h : c ∈ writeByte m a b) :
    c = (a, b) ∨ c ∈ m := by
  induction m with
  | nil => simpa [writeByte] using h
  | cons d rest ih =>
    obtain ⟨k, d⟩ := d
    unfold writeByte at h
    split at h
    · simpa using h
    · split at h
      · rcases List.mem_cons.1 h with h | h
        · exact .inl h
        · exact .inr (List.mem_cons_of_mem _ h)
      · rcases List.mem_cons.1 h with h | h
        · exact .inr (h ▸ List.mem_cons_self)
        · exact (ih h).imp id (List.mem_cons_of_mem _)

/-- A write keeps the canonical form. -/
theorem writeByte_wf {m : Memory} {a : Nat} (b : Byte) (hm : Memory.wf m) (ha : a < 65536) :
    Memory.wf (writeByte m a b) := by
  refine ⟨?_, fun c hc => (mem_writeByte hc).elim (fun e => e ▸ ha) (hm.2 c)⟩
  have hp := hm.1
  clear hm
  induction m with
  | nil => simp [writeByte]
  | cons d rest ih =>
    obtain ⟨k, d⟩ := d
    obtain ⟨hk, hr⟩ := List.pairwise_cons.1 hp
    unfold writeByte
    split
    · next h =>
      refine List.pairwise_cons.2 ⟨fun c hc => ?_, hp⟩
      rcases List.mem_cons.1 hc with e | e
      · exact e ▸ h
      · exact h.trans (hk c e)
    · split
      · next h => exact List.pairwise_cons.2 ⟨fun c hc => h ▸ hk c hc, hr⟩
      · next h1 h2 =>
        refine List.pairwise_cons.2 ⟨fun c hc => ?_, ih hr⟩
        rcases mem_writeByte hc with e | e
        · subst e; show k < a; omega
        · exact hk c e

/-- An address below every listed one reads as no value. -/
theorem readByte_none_of_lt {m : Memory} {a : Nat} (h : ∀ c ∈ m, a < c.1) : readByte m a = none := by
  induction m with
  | nil => rfl
  | cons c rest ih =>
    obtain ⟨k, c⟩ := c
    have hk : a < k := h (k, c) List.mem_cons_self
    have := ih fun d hd => h d (List.mem_cons_of_mem _ hd)
    simp [readByte, Nat.ne_of_lt hk, this]

/-- Two spaces in canonical form that read the same everywhere are the same list. -/
theorem memory_ext {m n : Memory} (hm : Memory.wf m) (hn : Memory.wf n)
    (h : ∀ a, readByte m a = readByte n a) : m = n := by
  replace hm := hm.1
  replace hn := hn.1
  induction m generalizing n with
  | nil =>
    cases n with
    | nil => rfl
    | cons d n => simpa [readByte] using h d.1
  | cons c m ih =>
    cases n with
    | nil => simpa [readByte] using h c.1
    | cons d n =>
      obtain ⟨hc, hm'⟩ := List.pairwise_cons.1 hm
      obtain ⟨hd, hn'⟩ := List.pairwise_cons.1 hn
      obtain ⟨k, b⟩ := c
      obtain ⟨l, e⟩ := d
      have hk := h k
      have hl := h l
      have hkl : k = l := by
        rcases Nat.lt_trichotomy k l with lt | eq | gt
        · have : readByte n k = none := readByte_none_of_lt fun x hx => lt.trans (hd x hx)
          simp [readByte, Nat.ne_of_lt lt, this] at hk
        · exact eq
        · have : readByte m l = none := readByte_none_of_lt fun x hx => Nat.lt_trans gt (hc x hx)
          simp [readByte, Nat.ne_of_lt gt, this] at hl
      subst hkl
      have hb : b = e := by simpa [readByte] using hk
      subst hb
      congr 1
      refine ih (fun a => ?_) hm' hn'
      by_cases ha : a = k
      · subst ha
        rw [readByte_none_of_lt (fun x hx => hc x hx), readByte_none_of_lt (fun x hx => hd x hx)]
      · simpa [readByte, ha] using h a

/-- Spaces equal as lists read the same. -/
theorem spacesUnchanged_of_eq {s t : State} (h1 : t.srcMem = s.srcMem) (h2 : t.nvm = s.nvm) :
    Safety.SpacesUnchanged s t := fun a => ⟨by rw [h1], by rw [h2]⟩

end Sys2Proof.Laws
end

