-- ==== Sys2Proof/Laws/PerInstr.lean ====
section
/-! SUPPORT. The family OpcodeField: the first word of every command's encoding carries the value of `op` that
30_encoding.md R85 gives its row, and the encoding has the length R83 gives that word. -/

namespace Sys2Proof.Laws.OpcodeField

open Sys2Proof Sys2Proof.Laws

/-- The value of `op` of a command's row (R85). -/
def opOf : Instr → Byte
  | .compose _ _ => 0x01
  | .exsig _ => 0x02
  | .exexp _ => 0x03
  | .norm _ _ => 0x04
  | .inv _ _ => 0x05
  | .toi16 _ => 0x06
  | .toi32 _ => 0x07
  | .creset _ => 0x10
  | .cstart _ => 0x11
  | .cget => 0x12
  | .cstat => 0x13
  | .swrite _ _ _ => 0x20
  | .sdone => 0x21

/-- The encoding's first word carries the row's `op` and says the encoding's length. -/
def Statement (i : Instr) : Prop :=
  ∃ w tail, encode i = w :: tail ∧ opField w = opOf i ∧ (encode i).length = commandLength true w

theorem compose (significand : Half) (exponent : Nibble) : Statement (.compose significand exponent) :=
  ⟨_, _, rfl, by simp [opOf, Opcode.code], by simp [encode, commandLength, Opcode.code]⟩

theorem exsig (w : Half) : Statement (.exsig w) :=
  ⟨_, _, rfl, by simp [opOf, Opcode.code], by simp [encode, commandLength, Opcode.code]⟩

theorem exexp (w : Half) : Statement (.exexp w) :=
  ⟨_, _, rfl, by simp [opOf, Opcode.code], by simp [encode, commandLength, Opcode.code]⟩

theorem norm (rawSignificand : Half) (signedExponent : Int) : Statement (.norm rawSignificand signedExponent) :=
  ⟨_, _, rfl, by simp [opOf, Opcode.code], by simp [encode, commandLength, Opcode.code]⟩

theorem inv (f : Half) (extraShift : Int) : Statement (.inv f extraShift) :=
  ⟨_, _, rfl, by simp [opOf, Opcode.code], by simp [encode, commandLength, Opcode.code]⟩

theorem toi16 (w : Half) : Statement (.toi16 w) :=
  ⟨_, _, rfl, by simp [opOf, Opcode.code], by simp [encode, commandLength, Opcode.code]⟩

theorem toi32 (w : Half) : Statement (.toi32 w) :=
  ⟨_, _, rfl, by simp [opOf, Opcode.code], by simp [encode, commandLength, Opcode.code]⟩

theorem creset (mode : Bool) : Statement (.creset mode) :=
  ⟨_, _, rfl, by simp [opOf, Opcode.code], by simp [encode, commandLength, Opcode.code]⟩

theorem cstart (prescaler : Nibble) : Statement (.cstart prescaler) :=
  ⟨_, _, rfl, by simp [opOf, Opcode.code], by simp [encode, commandLength, Opcode.code]⟩

theorem cget : Statement .cget :=
  ⟨_, _, rfl, by simp [opOf, Opcode.code], by simp [encode, commandLength, Opcode.code]⟩

theorem cstat : Statement .cstat :=
  ⟨_, _, rfl, by simp [opOf, Opcode.code], by simp [encode, commandLength, Opcode.code]⟩

theorem swrite (source destination : Half) (length : Byte) : Statement (.swrite source destination length) :=
  ⟨_, _, rfl, by simp [opOf, Opcode.code], by simp [encode, commandLength, Opcode.code]⟩

theorem sdone : Statement .sdone :=
  ⟨_, _, rfl, by simp [opOf, Opcode.code], by simp [encode, commandLength, Opcode.code]⟩

end Sys2Proof.Laws.OpcodeField
end

