-- ==== Sys2Proof/Laws/State.lean ====
section
/-! SUPPORT. What each shared operation does to each field of State: one lemma per field, true by rfl. -/

namespace Sys2Proof.Laws

open Sys2Proof.Machine

@[simp] theorem respond_params (st : Status) (v : Word32) (s : State) : (respond st v s).params = s.params := rfl
@[simp] theorem respond_inv (st : Status) (v : Word32) (s : State) : (respond st v s).inv = s.inv := rfl
@[simp] theorem respond_cap (st : Status) (v : Word32) (s : State) : (respond st v s).cap = s.cap := rfl
@[simp] theorem respond_asw (st : Status) (v : Word32) (s : State) : (respond st v s).asw = s.asw := rfl
@[simp] theorem respond_srcMem (st : Status) (v : Word32) (s : State) : (respond st v s).srcMem = s.srcMem := rfl
@[simp] theorem respond_nvm (st : Status) (v : Word32) (s : State) : (respond st v s).nvm = s.nvm := rfl
@[simp] theorem respond_nvmLog (st : Status) (v : Word32) (s : State) : (respond st v s).nvmLog = s.nvmLog := rfl
@[simp] theorem respond_held (st : Status) (v : Word32) (s : State) : (respond st v s).held = s.held := rfl
@[simp] theorem respond_rst (st : Status) (v : Word32) (s : State) : (respond st v s).rst = s.rst := rfl
@[simp] theorem respond_responses (st : Status) (v : Word32) (s : State) :
    (respond st v s).responses = { status := st, value := v } :: s.responses := rfl
@[simp] theorem respond_moves (st : Status) (v : Word32) (s : State) : (respond st v s).moves = s.moves := rfl
@[simp] theorem respond_draws (st : Status) (v : Word32) (s : State) : (respond st v s).draws = s.draws := rfl

@[simp] theorem answerIllegal_params (s : State) : (answerIllegal s).params = s.params := rfl
@[simp] theorem answerIllegal_inv (s : State) : (answerIllegal s).inv = s.inv := rfl
@[simp] theorem answerIllegal_cap (s : State) : (answerIllegal s).cap = s.cap := rfl
@[simp] theorem answerIllegal_asw (s : State) : (answerIllegal s).asw = s.asw := rfl
@[simp] theorem answerIllegal_srcMem (s : State) : (answerIllegal s).srcMem = s.srcMem := rfl
@[simp] theorem answerIllegal_nvm (s : State) : (answerIllegal s).nvm = s.nvm := rfl
@[simp] theorem answerIllegal_nvmLog (s : State) : (answerIllegal s).nvmLog = s.nvmLog := rfl
@[simp] theorem answerIllegal_held (s : State) : (answerIllegal s).held = s.held := rfl
@[simp] theorem answerIllegal_rst (s : State) : (answerIllegal s).rst = s.rst := rfl
@[simp] theorem answerIllegal_responses (s : State) :
    (answerIllegal s).responses = { status := .illegal, value := 0 } :: s.responses := rfl
@[simp] theorem answerIllegal_moves (s : State) : (answerIllegal s).moves = s.moves := rfl
@[simp] theorem answerIllegal_draws (s : State) : (answerIllegal s).draws = s.draws := rfl

@[simp] theorem nvmWrite_params (off : Half) (b : Byte) (s : State) : (nvmWrite off b s).params = s.params := rfl
@[simp] theorem nvmWrite_inv (off : Half) (b : Byte) (s : State) : (nvmWrite off b s).inv = s.inv := rfl
@[simp] theorem nvmWrite_cap (off : Half) (b : Byte) (s : State) : (nvmWrite off b s).cap = s.cap := rfl
@[simp] theorem nvmWrite_asw (off : Half) (b : Byte) (s : State) : (nvmWrite off b s).asw = s.asw := rfl
@[simp] theorem nvmWrite_srcMem (off : Half) (b : Byte) (s : State) : (nvmWrite off b s).srcMem = s.srcMem := rfl
@[simp] theorem nvmWrite_nvm (off : Half) (b : Byte) (s : State) :
    (nvmWrite off b s).nvm = writeByte s.nvm off.toNat b := rfl
@[simp] theorem nvmWrite_nvmLog (off : Half) (b : Byte) (s : State) :
    (nvmWrite off b s).nvmLog = { off := off, byte := b } :: s.nvmLog := rfl
@[simp] theorem nvmWrite_held (off : Half) (b : Byte) (s : State) : (nvmWrite off b s).held = s.held := rfl
@[simp] theorem nvmWrite_rst (off : Half) (b : Byte) (s : State) : (nvmWrite off b s).rst = s.rst := rfl
@[simp] theorem nvmWrite_responses (off : Half) (b : Byte) (s : State) :
    (nvmWrite off b s).responses = s.responses := rfl
@[simp] theorem nvmWrite_moves (off : Half) (b : Byte) (s : State) : (nvmWrite off b s).moves = s.moves := rfl
@[simp] theorem nvmWrite_draws (off : Half) (b : Byte) (s : State) : (nvmWrite off b s).draws = s.draws := rfl

@[simp] theorem sourcePut_params (addr : Half) (b : Byte) (s : State) : (sourcePut addr b s).params = s.params := rfl
@[simp] theorem sourcePut_inv (addr : Half) (b : Byte) (s : State) : (sourcePut addr b s).inv = s.inv := rfl
@[simp] theorem sourcePut_cap (addr : Half) (b : Byte) (s : State) : (sourcePut addr b s).cap = s.cap := rfl
@[simp] theorem sourcePut_asw (addr : Half) (b : Byte) (s : State) : (sourcePut addr b s).asw = s.asw := rfl
@[simp] theorem sourcePut_srcMem (addr : Half) (b : Byte) (s : State) :
    (sourcePut addr b s).srcMem = writeByte s.srcMem addr.toNat b := rfl
@[simp] theorem sourcePut_nvm (addr : Half) (b : Byte) (s : State) : (sourcePut addr b s).nvm = s.nvm := rfl
@[simp] theorem sourcePut_nvmLog (addr : Half) (b : Byte) (s : State) : (sourcePut addr b s).nvmLog = s.nvmLog := rfl
@[simp] theorem sourcePut_held (addr : Half) (b : Byte) (s : State) : (sourcePut addr b s).held = s.held := rfl
@[simp] theorem sourcePut_rst (addr : Half) (b : Byte) (s : State) : (sourcePut addr b s).rst = s.rst := rfl
@[simp] theorem sourcePut_responses (addr : Half) (b : Byte) (s : State) :
    (sourcePut addr b s).responses = s.responses := rfl
@[simp] theorem sourcePut_moves (addr : Half) (b : Byte) (s : State) : (sourcePut addr b s).moves = s.moves := rfl
@[simp] theorem sourcePut_draws (addr : Half) (b : Byte) (s : State) : (sourcePut addr b s).draws = s.draws := rfl

@[simp] theorem startCapture_params (p : Nibble) (s : State) : (startCapture p s).params = s.params := rfl
@[simp] theorem startCapture_inv (p : Nibble) (s : State) : (startCapture p s).inv = s.inv := rfl
@[simp] theorem startCapture_cap (p : Nibble) (s : State) :
    (startCapture p s).cap = { s.cap with cstate := .sampling, cie := true, tdiv := p, senseOe := false } := rfl
@[simp] theorem startCapture_asw (p : Nibble) (s : State) : (startCapture p s).asw = s.asw := rfl
@[simp] theorem startCapture_srcMem (p : Nibble) (s : State) : (startCapture p s).srcMem = s.srcMem := rfl
@[simp] theorem startCapture_nvm (p : Nibble) (s : State) : (startCapture p s).nvm = s.nvm := rfl
@[simp] theorem startCapture_nvmLog (p : Nibble) (s : State) : (startCapture p s).nvmLog = s.nvmLog := rfl
@[simp] theorem startCapture_held (p : Nibble) (s : State) : (startCapture p s).held = s.held := rfl
@[simp] theorem startCapture_rst (p : Nibble) (s : State) : (startCapture p s).rst = s.rst := rfl
@[simp] theorem startCapture_responses (p : Nibble) (s : State) : (startCapture p s).responses = s.responses := rfl
@[simp] theorem startCapture_moves (p : Nibble) (s : State) : (startCapture p s).moves = s.moves := rfl
@[simp] theorem startCapture_draws (p : Nibble) (s : State) : (startCapture p s).draws = s.draws := rfl

@[simp] theorem endCapture_params (raw : Byte) (c : CState) (s : State) :
    (endCapture raw c s).params = s.params := rfl
@[simp] theorem endCapture_inv (raw : Byte) (c : CState) (s : State) : (endCapture raw c s).inv = s.inv := rfl
@[simp] theorem endCapture_cap (raw : Byte) (c : CState) (s : State) :
    (endCapture raw c s).cap = { s.cap with raw := raw, tdiv := 0, cstate := c } := rfl
@[simp] theorem endCapture_asw (raw : Byte) (c : CState) (s : State) : (endCapture raw c s).asw = s.asw := rfl
@[simp] theorem endCapture_srcMem (raw : Byte) (c : CState) (s : State) :
    (endCapture raw c s).srcMem = s.srcMem := rfl
@[simp] theorem endCapture_nvm (raw : Byte) (c : CState) (s : State) : (endCapture raw c s).nvm = s.nvm := rfl
@[simp] theorem endCapture_nvmLog (raw : Byte) (c : CState) (s : State) :
    (endCapture raw c s).nvmLog = s.nvmLog := rfl
@[simp] theorem endCapture_held (raw : Byte) (c : CState) (s : State) : (endCapture raw c s).held = s.held := rfl
@[simp] theorem endCapture_rst (raw : Byte) (c : CState) (s : State) : (endCapture raw c s).rst = s.rst := rfl
@[simp] theorem endCapture_responses (raw : Byte) (c : CState) (s : State) :
    (endCapture raw c s).responses = s.responses := rfl
@[simp] theorem endCapture_moves (raw : Byte) (c : CState) (s : State) : (endCapture raw c s).moves = s.moves := rfl
@[simp] theorem endCapture_draws (raw : Byte) (c : CState) (s : State) : (endCapture raw c s).draws = s.draws := rfl

@[simp] theorem hardwareReset_params (level : Bool) (s : State) : (hardwareReset level s).params = s.params := rfl
@[simp] theorem hardwareReset_inv (level : Bool) (s : State) :
    (hardwareReset level s).inv = (Unspecified.draw s.draws).inv := rfl
@[simp] theorem hardwareReset_cap (level : Bool) (s : State) :
    (hardwareReset level s).cap = CaptureRegs.afterReset s.params (Unspecified.draw s.draws) := rfl
@[simp] theorem hardwareReset_asw (level : Bool) (s : State) :
    (hardwareReset level s).asw = StorageRegs.afterReset (Unspecified.draw s.draws) := rfl
@[simp] theorem hardwareReset_srcMem (level : Bool) (s : State) : (hardwareReset level s).srcMem = s.srcMem := rfl
@[simp] theorem hardwareReset_nvm (level : Bool) (s : State) : (hardwareReset level s).nvm = s.nvm := rfl
@[simp] theorem hardwareReset_nvmLog (level : Bool) (s : State) : (hardwareReset level s).nvmLog = s.nvmLog := rfl
@[simp] theorem hardwareReset_held (level : Bool) (s : State) : (hardwareReset level s).held = none := rfl
@[simp] theorem hardwareReset_rst (level : Bool) (s : State) : (hardwareReset level s).rst = level := rfl
@[simp] theorem hardwareReset_responses (level : Bool) (s : State) :
    (hardwareReset level s).responses = s.responses := rfl
@[simp] theorem hardwareReset_moves (level : Bool) (s : State) : (hardwareReset level s).moves = s.moves := rfl
@[simp] theorem hardwareReset_draws (level : Bool) (s : State) :
    (hardwareReset level s).draws = s.draws + drawsPerReset := rfl

@[simp] theorem captureAfterReset_cstate (p : Params) (u : Unspecified) :
    (CaptureRegs.afterReset p u).cstate = .idle := rfl
@[simp] theorem captureAfterReset_presc (p : Params) (u : Unspecified) :
    (CaptureRegs.afterReset p u).presc = p.prescInit := rfl
@[simp] theorem captureAfterReset_raw (p : Params) (u : Unspecified) : (CaptureRegs.afterReset p u).raw = u.raw := rfl
@[simp] theorem captureAfterReset_tcnt (p : Params) (u : Unspecified) : (CaptureRegs.afterReset p u).tcnt = 0 := rfl
@[simp] theorem captureAfterReset_tdiv (p : Params) (u : Unspecified) : (CaptureRegs.afterReset p u).tdiv = 0 := rfl
@[simp] theorem captureAfterReset_cie (p : Params) (u : Unspecified) : (CaptureRegs.afterReset p u).cie = false := rfl
@[simp] theorem captureAfterReset_mode (p : Params) (u : Unspecified) :
    (CaptureRegs.afterReset p u).mode = false := rfl
@[simp] theorem captureAfterReset_edge (p : Params) (u : Unspecified) :
    (CaptureRegs.afterReset p u).edge = .falling := rfl
@[simp] theorem captureAfterReset_senseOe (p : Params) (u : Unspecified) :
    (CaptureRegs.afterReset p u).senseOe = false := rfl
@[simp] theorem captureAfterReset_senseLvl (p : Params) (u : Unspecified) :
    (CaptureRegs.afterReset p u).senseLvl = false := rfl
@[simp] theorem captureAfterReset_gpend (p : Params) (u : Unspecified) :
    (CaptureRegs.afterReset p u).gpend = false := rfl
@[simp] theorem captureAfterReset_gpUsed (p : Params) (u : Unspecified) :
    (CaptureRegs.afterReset p u).gpUsed = u.gpUsed := rfl

@[simp] theorem storageAfterReset_src (u : Unspecified) : (StorageRegs.afterReset u).src = u.src := rfl
@[simp] theorem storageAfterReset_dst (u : Unspecified) : (StorageRegs.afterReset u).dst = u.dst := rfl
@[simp] theorem storageAfterReset_len (u : Unspecified) : (StorageRegs.afterReset u).len = u.len := rfl
@[simp] theorem storageAfterReset_rem (u : Unspecified) : (StorageRegs.afterReset u).rem = u.rem := rfl
@[simp] theorem storageAfterReset_busy (u : Unspecified) : (StorageRegs.afterReset u).busy = false := rfl
@[simp] theorem storageAfterReset_rie (u : Unspecified) : (StorageRegs.afterReset u).rie = false := rfl

end Sys2Proof.Laws
end

