-- ==== Sys2Proof/Laws/Step.lean ====
section
/-! SUPPORT. What a step can do, said once: the step of each move, the cases of the command port, and what no
command writes. Later proofs cite these and do not unfold `step`, `takeMove` or `acceptWord`. -/

namespace Sys2Proof.Laws

open Sys2Proof.Machine

/-- With nothing scheduled the sequencer has its turn. -/
theorem step_nil {s : State} (h : s.moves = []) : step s = .next (sequencerTurn s) := by
  unfold step; rw [h]

/-- With a move scheduled the agent of that move takes its step. -/
theorem step_cons {s : State} {m : Move} {rest : List Move} (h : s.moves = m :: rest) :
    step s = takeMove m { s with moves := rest } := by
  unfold step; rw [h]

/-- Every step is the sequencer's turn or one agent's move. -/
theorem step_cases {s t : State} (h : step s = .next t) :
    (s.moves = [] ∧ t = sequencerTurn s)
      ∨ ∃ m rest, s.moves = m :: rest ∧ takeMove m { s with moves := rest } = .next t := by
  cases hm : s.moves with
  | nil => rw [step_nil hm] at h; exact .inl ⟨rfl, (Host.Outcome.next.inj h).symm⟩
  | cons m rest => rw [step_cons hm] at h; exact .inr ⟨m, rest, rfl, h⟩

/-- The port takes a word only when it is open; then the word is held, or it ends a command that runs. -/
theorem acceptWord_cases {w : Word32} {s t : State} (h : acceptWord w s = .next t) :
    cmdReady s = true
      ∧ ((s.held = none ∧ commandLength s.params.hasAsw w = 2 ∧ t = { s with held := some w })
        ∨ (s.held = none ∧ commandLength s.params.hasAsw w ≠ 2 ∧ runCommand [w] s = .next t)
        ∨ ∃ w0, s.held = some w0 ∧ runCommand [w0, w] { s with held := none } = .next t) := by
  unfold acceptWord at h
  split at h
  · next hr =>
    refine ⟨hr, ?_⟩
    split at h
    · next w0 hw => exact .inr (.inr ⟨w0, hw, h⟩)
    · next hw =>
      split at h
      · next hl => exact .inl ⟨hw, hl, (Host.Outcome.next.inj h).symm⟩
      · next hl => exact .inr (.inl ⟨hw, hl, h⟩)
  · exact absurd h (by simp)

/-- The words of a command run the command, are answered ILLEGAL, or are none yet. -/
theorem runCommand_cases {ws : List Word32} {s t : State} (h : runCommand ws s = .next t) :
    (∃ i rest, decode s.params.hasAsw ws = .ok i rest ∧ exec i s = .next t)
      ∨ (∃ op, decode s.params.hasAsw ws = .refused (.undefinedOpcode op) ∧ t = answerIllegal s)
      ∨ (decode s.params.hasAsw ws = .refused .incomplete ∧ t = s) := by
  unfold runCommand at h
  split at h
  · next i rest hd => exact .inl ⟨i, rest, hd, h⟩
  · next op hd => exact .inr (.inl ⟨op, hd, (Host.Outcome.next.inj h).symm⟩)
  · next hd => exact .inr (.inr ⟨hd, (Host.Outcome.next.inj h).symm⟩)

/-- A word of length 1 is no SWRITE: it never decodes as incomplete. -/
theorem decode_single_of_length {hasAsw : Bool} {w : Word32} (h : commandLength hasAsw w ≠ 2) :
    decode hasAsw [w] ≠ .refused .incomplete := by
  intro hd
  cases ho : Opcode.ofCode hasAsw (opField w) with
  | none => rw [decode_none [] ho] at hd; exact absurd hd (by simp)
  | some o =>
    rw [decode_some [] ho] at hd
    obtain ⟨rfl, -⟩ := decodeOperands_incomplete hd
    exact h (ofCode_swrite_length ho)

/-- What no command writes: the parameters, the spaces, the record of writes, the reset input, the held word, the
schedule and the draw counter. -/
theorem exec_leaves_ports {i : Instr} {s t : State} (h : exec i s = .next t) :
    t.params = s.params ∧ t.srcMem = s.srcMem ∧ t.nvm = s.nvm ∧ t.nvmLog = s.nvmLog ∧ t.rst = s.rst
      ∧ t.held = s.held ∧ t.moves = s.moves ∧ t.draws = s.draws := by
  cases i <;>
    simp only [exec, execCompose, execExsig, execExexp, execNorm, execInv, execToi16, execToi32, execCreset,
      execCstart, execCget, execCstat, execSwrite, execSdone] at h <;>
    (repeat' split at h) <;> cases h <;> simp

/-- A handler kept from running while `rst` is asserted. -/
@[simp] theorem unlessReset_of_reset {f : State → State} {s : State} (h : s.rst = true) : unlessReset f s = s := by
  simp [unlessReset, h]

@[simp] theorem unlessReset_of_running {f : State → State} {s : State} (h : s.rst = false) :
    unlessReset f s = f s := by
  simp [unlessReset, h]

/-- The comparator handler latches or leaves (42_capture.md R176). -/
theorem handleCmp_cases (s : State) :
    (s.cap.cie = true ∧ s.cap.cstate = .sampling ∧ handleCmp s = endCapture s.cap.tcnt .complete s)
      ∨ ((s.cap.cie = false ∨ s.cap.cstate ≠ .sampling) ∧ handleCmp s = s) := by
  by_cases h : (s.cap.cie && isSampling s) = true
  · have h' := h
    simp only [isSampling, Bool.and_eq_true, beq_iff_eq] at h'
    exact .inl ⟨h'.1, h'.2, by rw [handleCmp, if_pos h]⟩
  · have h' := h
    simp only [isSampling, Bool.and_eq_true, beq_iff_eq, not_and_or, Bool.not_eq_true] at h'
    exact .inr ⟨h', by rw [handleCmp, if_neg h]⟩

/-- The timer clock is dropped, counts, overflows, or wraps unnoticed (R178, R179). -/
theorem handleTick_cases (s : State) :
    (s.cap.tdiv = 0 ∧ handleTick s = s)
      ∨ (s.cap.tdiv ≠ 0 ∧ s.cap.tcnt ≠ 0xFF ∧ handleTick s = { s with cap.tcnt := s.cap.tcnt + 1 })
      ∨ (s.cap.tdiv ≠ 0 ∧ s.cap.tcnt = 0xFF ∧ s.cap.cstate = .sampling
          ∧ handleTick s = endCapture 0xFF .completeOverflow { s with cap.tcnt := 0 })
      ∨ (s.cap.tdiv ≠ 0 ∧ s.cap.tcnt = 0xFF ∧ s.cap.cstate ≠ .sampling
          ∧ handleTick s = { s with cap.tcnt := 0 }) := by
  by_cases hd : s.cap.tdiv = 0
  · exact .inl ⟨hd, by rw [handleTick, if_neg (by simp [timerRuns, hd])]⟩
  · have hr : timerRuns s = true := by simpa [timerRuns] using hd
    by_cases hc : s.cap.tcnt = 0xFF
    · have e : handleTick s = overflowArm s := by rw [handleTick, if_pos hr, if_pos hc]
      by_cases hs : s.cap.cstate = .sampling
      · exact .inr (.inr (.inl ⟨hd, hc, hs, by rw [e, overflowArm, if_pos (by simp [isSampling, hs])]; rfl⟩))
      · exact .inr (.inr (.inr ⟨hd, hc, hs, by rw [e, overflowArm, if_neg (by simp [isSampling, hs])]⟩))
    · exact .inr (.inl ⟨hd, hc, by rw [handleTick, if_pos hr, if_neg hc]⟩)

/-- The sequencer completes a CGET or leaves (R171). -/
theorem sequencerTurn_cases (s : State) :
    (s.cap.gpend = true ∧ s.cap.cstate ≠ .sampling ∧ s.rst = false ∧ sequencerTurn s = completeCget s)
      ∨ ((s.cap.gpend = false ∨ s.cap.cstate = .sampling ∨ s.rst = true) ∧ sequencerTurn s = s) := by
  by_cases h : completionEnabled s = true
  · have h' := h
    simp only [completionEnabled, isSampling, Bool.and_eq_true, Bool.not_eq_true', beq_eq_false_iff_ne] at h'
    exact .inl ⟨h'.1.1, h'.1.2, h'.2, by rw [sequencerTurn, if_pos h]⟩
  · refine .inr ⟨?_, by rw [sequencerTurn, if_neg h]⟩
    cases hg : s.cap.gpend with
    | false => exact .inl rfl
    | true =>
      by_cases hs : s.cap.cstate = .sampling
      · exact .inr (.inl hs)
      · exact .inr (.inr (by simpa [completionEnabled, isSampling, hg, hs] using h))

/-- The storage-ready handler moves one byte, the last one or not, or leaves (43_storage_writer.md R206). -/
theorem handleSrdy_cases (s : State) :
    ((s.params.hasAsw = false ∨ s.asw.rie = false) ∧ handleSrdy s = s)
      ∨ (s.params.hasAsw = true ∧ s.asw.rie = true
        ∧ ((s.asw.rem - 1 = 0
            ∧ handleSrdy s
              = { nvmWrite (transferDst s.asw) (srcRead (transferSrc s.asw) s) s with
                  asw.rem := s.asw.rem - 1, asw.rie := false, asw.busy := false })
          ∨ (s.asw.rem - 1 ≠ 0
            ∧ handleSrdy s
              = { nvmWrite (transferDst s.asw) (srcRead (transferSrc s.asw) s) s with
                  asw.rem := s.asw.rem - 1 }))) := by
  by_cases h : nvmRieOut s = true
  · have h' := h
    simp only [nvmRieOut, Bool.and_eq_true] at h'
    refine .inr ⟨h'.1, h'.2, ?_⟩
    by_cases hz : s.asw.rem - 1 = 0
    · exact .inl ⟨hz, by rw [handleSrdy, if_pos h, if_pos hz]⟩
    · exact .inr ⟨hz, by rw [handleSrdy, if_pos h, if_neg hz]⟩
  · have h' := h
    simp only [nvmRieOut, Bool.and_eq_true, not_and_or, Bool.not_eq_true] at h'
    exact .inl ⟨h', by rw [handleSrdy, if_neg h]⟩

/-- The word placed by `withFetchWord` is the one the very next step takes, with the port open. -/
theorem step_withFetchWord_single (s : State) (nbits w : Nat)
    (h : commandLength s.params.hasAsw (tableWords nbits w).1 ≠ 2) :
    step (s.withFetchWord nbits w)
      = runCommand [(tableWords nbits w).1] { s with cap.gpend := false, rst := false, held := none } := by
  simp [State.withFetchWord, h, step, takeMove, acceptWord, cmdReady]

theorem step_withFetchWord_double (s : State) (nbits w : Nat)
    (h : commandLength s.params.hasAsw (tableWords nbits w).1 = 2) :
    step (s.withFetchWord nbits w)
      = runCommand [(tableWords nbits w).1, (tableWords nbits w).2]
          { s with cap.gpend := false, rst := false, held := none } := by
  simp [State.withFetchWord, h, step, takeMove, acceptWord, cmdReady]

/-- A run of `k + 1` steps is a step and a run of `k`. -/
theorem run_succ {s t : State} (k : Nat) (h : step s = .next t) :
    Host.Core.run
        { State := State, Fault := Fault, Refusal := Refusal, step := step, reset := State.reset } (k + 1) s
      = Host.Core.run
        { State := State, Fault := Fault, Refusal := Refusal, step := step, reset := State.reset } k t := by
  simp only [Host.Core.run, h]

end Sys2Proof.Laws
end

