-- ==== Sys2Proof/Laws/Transfer.lean ====
section
/-! SUPPORT. What a step can do to the storage writer and to the record of writes, said once, and the addresses of a
transfer in numbers. -/

namespace Sys2Proof.Laws

open Sys2Proof.Machine Sys2Proof.Safety

/-- `LEN - REM`, where `REM` does not exceed `LEN` (10_state.md R32). -/
theorem transferIndex_toNat {a : StorageRegs} (h : a.rem.toNat ≤ a.len.toNat) :
    (transferIndex a).toNat = a.len.toNat - a.rem.toNat := by
  have := a.len.isLt
  rw [transferIndex, BitVec.toNat_setWidth, BitVec.toNat_sub]
  omega

/-- The destination of the next byte is that of byte `LEN - REM` (43_storage_writer.md R206). -/
theorem transferDst_toNat {a : StorageRegs} (h : a.rem.toNat ≤ a.len.toNat) :
    (transferDst a).toNat = byteAddr a.dst (a.len.toNat - a.rem.toNat) := by
  rw [transferDst, BitVec.toNat_add, transferIndex_toNat h, byteAddr]

/-- The source of the next byte is that of byte `LEN - REM`. -/
theorem transferSrc_toNat {a : StorageRegs} (h : a.rem.toNat ≤ a.len.toNat) :
    (transferSrc a).toNat = byteAddr a.src (a.len.toNat - a.rem.toNat) := by
  rw [transferSrc, BitVec.toNat_add, transferIndex_toNat h, byteAddr]

/-- The byte a ready pulse reads is byte `LEN - REM` of the source. -/
theorem srcRead_transferSrc {s : State} (h : s.asw.rem.toNat ≤ s.asw.len.toNat) :
    srcRead (transferSrc s.asw) s = sourceByte s (s.asw.len.toNat - s.asw.rem.toNat) := by
  rw [srcRead, sourceByte, ← transferSrc_toNat h, BitVec.ofNat_toNat, BitVec.setWidth_eq]

/-- What a ready pulse that takes effect does, while bytes are left (43_storage_writer.md R206): one write, one byte
less, and with the last byte the end of the transfer. -/
theorem handleSrdy_moves_one_byte {s : State} (hA : s.params.hasAsw = true) (hr : s.asw.rie = true)
    (h1 : 1 ≤ s.asw.rem.toNat) (h2 : s.asw.rem.toNat ≤ s.asw.len.toNat) :
    ∃ a : StorageRegs,
      handleSrdy s
          = { s with
              asw := a
              nvm := writeByte s.nvm (transferDst s.asw).toNat (sourceByte s (s.asw.len.toNat - s.asw.rem.toNat))
              nvmLog := { off := transferDst s.asw
                          byte := sourceByte s (s.asw.len.toNat - s.asw.rem.toNat) } :: s.nvmLog }
        ∧ a.rem.toNat = s.asw.rem.toNat - 1 ∧ a.src = s.asw.src ∧ a.dst = s.asw.dst ∧ a.len = s.asw.len
        ∧ (s.asw.rem.toNat = 1 → a.busy = false ∧ a.rie = false)
        ∧ (s.asw.rem.toNat ≠ 1 → a.busy = s.asw.busy ∧ a.rie = s.asw.rie) := by
  have e1 : (s.asw.rem - 1).toNat = s.asw.rem.toNat - 1 := by
    have := s.asw.rem.isLt
    rw [BitVec.toNat_sub, show (1 : Byte).toNat = 1 from rfl]
    omega
  have e2 : s.asw.rem - 1 = 0 ↔ s.asw.rem.toNat = 1 := by
    rw [← BitVec.toNat_inj, e1, show (0 : Byte).toNat = 0 from rfl]
    omega
  rw [← srcRead_transferSrc h2]
  obtain ⟨h, -⟩ | ⟨-, -, ⟨hz, e⟩ | ⟨hz, e⟩⟩ := handleSrdy_cases s
  · simp [hA, hr] at h
  · exact ⟨{ s.asw with rem := s.asw.rem - 1, rie := false, busy := false }, e, e1, rfl, rfl, rfl,
      fun _ => ⟨rfl, rfl⟩, fun h => absurd (e2.1 hz) h⟩
  · exact ⟨{ s.asw with rem := s.asw.rem - 1 }, e, e1, rfl, rfl, rfl, fun h => absurd (e2.2 h) hz,
      fun _ => ⟨rfl, rfl⟩⟩

/-- Of the commands only SWRITE writes U3, and only where no transfer is in flight and the length is not 0. -/
theorem exec_storage_cases {i : Instr} {s t : State} (h : exec i s = .next t) :
    t.asw = s.asw
      ∨ ∃ src dst len, i = .swrite src dst len ∧ s.asw.busy = false ∧ len ≠ 0
        ∧ t.asw = { src := src, dst := dst, len := len, rem := len, busy := true, rie := true } := by
  cases i <;>
    simp only [exec, execCompose, execExsig, execExexp, execNorm, execInv, execToi16, execToi32, execCreset,
      execCstart, execCget, execCstat, execSwrite, execSdone] at h <;>
    (repeat' split at h) <;> cases h <;> first
    | exact .inl rfl
    | exact .inr ⟨_, _, _, rfl, by simpa using ‹¬ s.asw.busy = true›, ‹_›, rfl⟩

/-- A word changes U3 as the command it ends does, and writes no byte. -/
theorem acceptWord_storage_cases {w : Word32} {s t : State} (h : acceptWord w s = .next t) :
    t.nvmLog = s.nvmLog ∧ t.nvm = s.nvm
      ∧ (t.asw = s.asw
        ∨ ∃ src dst len, s.asw.busy = false ∧ len ≠ 0
          ∧ t.asw = { src := src, dst := dst, len := len, rem := len, busy := true, rie := true }) := by
  have run : ∀ (ws : List Word32) (u : State), runCommand ws u = .next t →
      t.nvmLog = u.nvmLog ∧ t.nvm = u.nvm
        ∧ (t.asw = u.asw
          ∨ ∃ src dst len, u.asw.busy = false ∧ len ≠ 0
            ∧ t.asw = { src := src, dst := dst, len := len, rem := len, busy := true, rie := true }) := by
    intro ws u hr
    obtain ⟨i, rest, -, he⟩ | ⟨op, -, rfl⟩ | ⟨-, rfl⟩ := runCommand_cases hr
    · obtain ⟨-, -, hn, hl, -⟩ := exec_leaves_ports he
      refine ⟨hl, hn, ?_⟩
      obtain e | ⟨src, dst, len, -, hb, hz, e⟩ := exec_storage_cases he
      · exact .inl e
      · exact .inr ⟨src, dst, len, hb, hz, e⟩
    · exact ⟨rfl, rfl, .inl rfl⟩
    · exact ⟨rfl, rfl, .inl rfl⟩
  obtain ⟨-, ⟨-, -, rfl⟩ | ⟨-, -, he⟩ | ⟨w0, -, he⟩⟩ := acceptWord_cases h
  · exact ⟨rfl, rfl, .inl rfl⟩
  · exact run _ _ he
  · exact run _ { s with held := none } he

/-- What a step can do to U3 and to the non-volatile space: leave them, start a transfer, reset U3, or move one
byte. -/
theorem step_storage_cases {s t : State} (h : step s = .next t) :
    (t.asw = s.asw ∧ t.nvmLog = s.nvmLog ∧ t.nvm = s.nvm)
      ∨ (∃ src dst len, s.asw.busy = false ∧ len ≠ 0 ∧ t.nvmLog = s.nvmLog ∧ t.nvm = s.nvm
          ∧ t.asw = { src := src, dst := dst, len := len, rem := len, busy := true, rie := true })
      ∨ (t.asw.busy = false ∧ t.asw.rie = false ∧ t.nvmLog = s.nvmLog ∧ t.nvm = s.nvm
          ∧ (s.moves.head? = some .assertReset ∨ (s.moves.head? = some .releaseReset ∧ s.rst = true)))
      ∨ ∃ rest, s.moves = .srdy :: rest ∧ s.rst = false ∧ s.params.hasAsw = true ∧ s.asw.rie = true
          ∧ t = handleSrdy { s with moves := rest } := by
  obtain ⟨-, rfl⟩ | ⟨m, rest, hm, ht⟩ := step_cases h
  · obtain ⟨-, -, -, e⟩ | ⟨-, e⟩ := sequencerTurn_cases s <;> rw [e] <;> exact .inl ⟨rfl, rfl, rfl⟩
  · cases m with
    | word w =>
      obtain ⟨hl, hn, e | ⟨src, dst, len, hb, hz, e⟩⟩ := acceptWord_storage_cases ht
      · exact .inl ⟨e, hl, hn⟩
      · exact .inr (.inl ⟨src, dst, len, hb, hz, hl, hn, e⟩)
    | sequencer =>
      cases ht
      obtain ⟨-, -, -, e⟩ | ⟨-, e⟩ := sequencerTurn_cases { s with moves := rest } <;> rw [e] <;>
        exact .inl ⟨rfl, rfl, rfl⟩
    | cmp =>
      cases ht
      unfold unlessReset
      split
      · exact .inl ⟨rfl, rfl, rfl⟩
      · obtain ⟨-, -, e⟩ | ⟨-, e⟩ := handleCmp_cases { s with moves := rest } <;> rw [e] <;>
          exact .inl ⟨rfl, rfl, rfl⟩
    | tick =>
      cases ht
      unfold unlessReset
      split
      · exact .inl ⟨rfl, rfl, rfl⟩
      · obtain ⟨-, e⟩ | ⟨-, -, e⟩ | ⟨-, -, -, e⟩ | ⟨-, -, -, e⟩ := handleTick_cases { s with moves := rest } <;>
          rw [e] <;> exact .inl ⟨rfl, rfl, rfl⟩
    | srdy =>
      cases ht
      unfold unlessReset
      split
      · exact .inl ⟨rfl, rfl, rfl⟩
      · next hr =>
        obtain ⟨-, e⟩ | ⟨ha, hi, -⟩ := handleSrdy_cases { s with moves := rest }
        · rw [e]; exact .inl ⟨rfl, rfl, rfl⟩
        · exact .inr (.inr (.inr ⟨rest, hm, by simpa using hr, ha, hi, rfl⟩))
    | sourcePut a b => cases ht; exact .inl ⟨rfl, rfl, rfl⟩
    | assertReset => cases ht; exact .inr (.inr (.inl ⟨rfl, rfl, rfl, rfl, .inl (by rw [hm]; rfl)⟩))
    | releaseReset =>
      cases ht
      split
      · next hr => exact .inr (.inr (.inl ⟨rfl, rfl, rfl, rfl, .inr ⟨by rw [hm]; rfl, hr⟩⟩))
      · exact .inl ⟨rfl, rfl, rfl⟩

/-- A run is over exactly when R225's clauses hold. -/
theorem runOver_iff (s : State) :
    runOver s = true
      ↔ (∀ w, Move.word w ∉ s.moves) ∧ s.held = none ∧ s.cap.gpend = false ∧ s.cap.tdiv = 0 ∧ s.asw.rie = false := by
  have words : allIssued s = true ↔ ∀ w, Move.word w ∉ s.moves := by
    rw [allIssued, List.all_eq_true]
    constructor
    · intro h w hw; exact absurd (h _ hw) (by simp)
    · intro h m hm
      cases m with
      | word w => exact absurd hm (h w)
      | _ => rfl
  simp [runOver, words, timerRuns, and_assoc]

end Sys2Proof.Laws
end

