-- ==== Sys2Proof/Tests/Slice0.lean ====
section
/-! SUPPORT. The model's own tests. Expected results are those of spec/95_test_vectors.md, or worked out by hand from
the rule named. First the words, then one or two steps for each command and event, then for every statement of
Certificates/Slice0/Obligations.lean that has hypotheses a state and operands that meet them. -/

namespace Sys2Proof.Tests

open Sys2Proof Sys2Proof.Machine Sys2Proof.Safety

/-- The state after a step, if there is one. -/
def nextOf (o : Host.Outcome State Fault Refusal) : Option State :=
  match o with
  | .next s => some s
  | _ => none

/-- The newest response after a step. -/
def answer (o : Host.Outcome State Fault Refusal) : Option Response := (nextOf o).bind fun s => s.responses.head?

/-- The registers of U2 after a step. -/
def capOf (o : Host.Outcome State Fault Refusal) : Option CaptureRegs := (nextOf o).map State.cap

/-- The registers of U3 after a step. -/
def aswOf (o : Host.Outcome State Fault Refusal) : Option StorageRegs := (nextOf o).map State.asw

/-- The parameters of the vectors: `UTHR = 16`, `PRESC_INIT = 3`, U3 present. -/
def vectorParams : Params := { hasAsw := true, uthr := 16, prescStart := 2 }

/-- Values for what R35 leaves unspecified; no test rests on them. -/
def zeros : Unspecified :=
  { raw := 0, gpUsed := 0, inv := { d := 0, rem := 0, q := 0, n := 0 }, src := 0, dst := 0, len := 0, rem := 0 }

/-- The block after reset with the parameters of the vectors. -/
def base : State := State.resetWith vectorParams zeros

/-- The same block without U3. -/
def bare : State := State.resetWith { vectorParams with hasAsw := false } zeros

/-- A capture in progress at count `c`, begun by CGET with prescaler `p`, and what comes next. -/
def sampling (c : Byte) (p : Nibble) (ms : List Move) : State :=
  { base with
    cap.cstate := .sampling, cap.cie := true, cap.tdiv := p, cap.tcnt := c, cap.presc := p, cap.gpUsed := p
    cap.gpend := true, moves := ms }

/-- A capture that has ended, with a CGET still waiting. -/
def ended (c : CState) (raw : Byte) (p : Nibble) : State :=
  { base with
    cap.cstate := c, cap.cie := true, cap.raw := raw, cap.presc := p, cap.gpUsed := p, cap.gpend := true
    moves := [.sequencer] }

/-- A transfer of three bytes in flight with `r` bytes remaining (43_storage_writer.md R201's example). -/
def transferring (r : Byte) (ms : List Move) : State :=
  { base with
    asw := { src := 0x0100, dst := 0x0020, len := 3, rem := r, busy := true, rie := true }
    srcMem := [(0x0100, 0xAA), (0x0101, 0xBB), (0x0102, 0xCC)]
    moves := ms }

/-! ## Well-formedness: each check refuses an ill-formed term -/

theorem test_wellFormed_norm_high : wellFormed true (.norm 0 128) = false := by decide
theorem test_wellFormed_norm_low : wellFormed true (.norm 0 (-129)) = false := by decide
theorem test_wellFormed_inv_high : wellFormed true (.inv 0 128) = false := by decide
theorem test_wellFormed_inv_low : wellFormed true (.inv 0 (-129)) = false := by decide
theorem test_wellFormed_swrite_without_asw : wellFormed false (.swrite 0 0 0) = false := by decide
theorem test_wellFormed_sdone_without_asw : wellFormed false .sdone = false := by decide

/-! ## Decoding: words written out from 30_encoding.md R81, R82, R85 -/

theorem test_decode_compose : decode true [0x01025A00] = .ok (.compose 0x5A00 2) [] := by decide
theorem test_decode_compose_ignored : decode true [0x01108000] = .ok (.compose 0x8000 0) [] := by decide
theorem test_decode_exsig : decode true [0x02AB5A02] = .ok (.exsig 0x5A02) [] := by decide
theorem test_decode_exexp : decode true [0x03001234] = .ok (.exexp 0x1234) [] := by decide
theorem test_decode_norm : decode true [0x04801234] = .ok (.norm 0x1234 (-128)) [] := by decide
theorem test_decode_norm_positive : decode true [0x047FFFFF] = .ok (.norm 0xFFFF 127) [] := by decide
theorem test_decode_inv : decode true [0x0580000F] = .ok (.inv 0x000F (-128)) [] := by decide
theorem test_decode_toi16 : decode true [0x06002D80] = .ok (.toi16 0x2D80) [] := by decide
theorem test_decode_toi32 : decode true [0x0700E120] = .ok (.toi32 0xE120) [] := by decide
theorem test_decode_creset : decode true [0x10FE0000] = .ok (.creset false) [] := by decide
theorem test_decode_cstart : decode true [0x11100000] = .ok (.cstart 0) [] := by decide
theorem test_decode_cget : decode false [0x12000000] = .ok .cget [] := by decide
theorem test_decode_cstat : decode false [0x13000000] = .ok .cstat [] := by decide
theorem test_decode_swrite : decode true [0x2002FFFF, 0x0000FFFF] = .ok (.swrite 0xFFFF 0xFFFF 2) [] := by decide
theorem test_decode_sdone : decode true [0x21000000] = .ok .sdone [] := by decide
theorem test_decode_undefined : decode true [0x22000000] = .refused (.undefinedOpcode 0x22) := by decide
theorem test_decode_sdone_without_asw : decode false [0x21000000] = .refused (.undefinedOpcode 0x21) := by decide
theorem test_decode_incomplete : decode true [0x20030100] = .refused .incomplete := by decide
theorem test_encode_norm : encode (.norm 0x1234 (-4)) = [0x04FC1234] := by decide
theorem test_encode_swrite : encode (.swrite 0x0100 0x0020 3) = [0x20030100, 0x00000020] := by decide
theorem test_tableWord_inv : decodeTableWord 32 0x051F8000 = some (.inv 0x8000 31) := by decide
theorem test_tableWord_swrite : decodeTableWord 32 0x20030100 = some (.swrite 0x0100 0 3) := by decide
theorem test_tableWord_swrite_two : decodeTableWord 64 0x0000002020030100 = some (.swrite 0x0100 0x0020 3) := by decide

/-! ## The word placed by `withFetchWord` runs first after reset -/

theorem test_fetch_compose :
    answer (step (State.reset.withFetchWord 32 0x01025A00)) = some { status := .ok, value := 0x5A02 } := by decide

theorem test_fetch_swrite :
    aswOf (step (State.reset.withFetchWord 64 0x0000002020030100))
      = some { src := 0x0100, dst := 0x0020, len := 3, rem := 3, busy := true, rie := true } := by decide

/-! ## U1: vectors of 95_test_vectors.md sections 2.2 to 2.5 -/

theorem test_compose : answer (exec (.compose 0x123F 0) base) = some { status := .ok, value := 0x1230 } := by decide
theorem test_compose_exponent_stays :
    answer (exec (.compose 0x000F 7) base) = some { status := .ok, value := 0x0007 } := by decide
theorem test_exsig : answer (exec (.exsig 0xFFFF) base) = some { status := .ok, value := 0xFFF0 } := by decide
theorem test_exexp : answer (exec (.exexp 0x1234) base) = some { status := .ok, value := 4 } := by decide
theorem test_norm_right : answer (exec (.norm 0x1234 (-4)) base) = some { status := .ok, value := 0x0120 } := by decide
theorem test_norm_left : answer (exec (.norm 0x1234 18) base) = some { status := .ok, value := 0x91AF } := by decide
theorem test_toi16_wraps : answer (exec (.toi16 0x5A02) base) = some { status := .ok, value := 0x6800 } := by decide
theorem test_toi32 : answer (exec (.toi32 0xFFFF) base) = some { status := .ok, value := 0x7FF80000 } := by decide
theorem test_inv :
    answer (exec (.inv 0x5A02 30) base) = some { status := .ok, value := 0x2D80 } := by decide +kernel
/-- The end of the iteration trace of section 2.5. -/
theorem test_inv_trace :
    (nextOf (exec (.inv 0x0010 20) base)).map State.inv = some { d := 17, rem := 1, q := 0xF0F, n := 17 } := by
  decide +kernel

/-! ## U2: vectors of section 2.6 -/

theorem test_creset_charge :
    (capOf (exec (.creset true) base)).map (fun c => (c.cstate, c.mode, c.edge, c.senseOe, c.senseLvl))
      = some (.ready, true, .rising, true, false) := by decide

theorem test_cstart :
    (capOf (exec (.cstart 3) base)).map (fun c => (c.cstate, c.tdiv, c.cie, c.senseOe))
      = some (.sampling, 3, true, false) := by decide

theorem test_cstart_zero : answer (exec (.cstart 0) base) = some { status := .illegal, value := 0 } := by decide

theorem test_cget_issue :
    (capOf (exec .cget base)).map (fun c => (c.cstate, c.tdiv, c.gpUsed, c.gpend)) = some (.sampling, 3, 3, true) := by
  decide

/-- The status word of R173's example. -/
theorem test_cstat :
    answer (exec .cstat
        { base with
          cap.cstate := .complete, cap.presc := 5, cap.raw := 0x5A, cap.cie := true, cap.senseLvl := true
          cap.tcnt := 0x5A })
      = some { status := .ok, value := 0x5A905A53 } := by decide

theorem test_cmp_latches :
    (capOf (step (sampling 0x5A 3 [.cmp]))).map (fun c => (c.raw, c.tdiv, c.cstate)) = some (0x5A, 0, .complete) := by
  decide

theorem test_tick_overflows :
    (capOf (step (sampling 0xFF 3 [.tick]))).map (fun c => (c.tcnt, c.raw, c.tdiv, c.cstate))
      = some (0, 0xFF, 0, .completeOverflow) := by decide

theorem test_completion_sample :
    answer (step (ended .complete 0x5A 3)) = some { status := .ok, value := 0x5A02 } := by decide

theorem test_completion_ranges_down :
    (capOf (step (ended .complete 0x0F 3))).map (fun c => (c.presc, c.gpend)) = some (2, false) := by decide

/-! ## U3: vectors of section 2.7 -/

theorem test_swrite_busy :
    answer (exec (.swrite 0x0200 0x0040 1) (transferring 3 [])) = some { status := .busy, value := 0 } := by decide

theorem test_swrite_empty : aswOf (exec (.swrite 0x0100 0x0020 0) base) = some base.asw := by decide

theorem test_sdone : answer (exec .sdone (transferring 2 [])) = some { status := .ok, value := 0 } := by decide

theorem test_srdy_last_byte :
    (nextOf (step (transferring 1 [.srdy]))).map (fun s => (s.nvm, s.asw.rem, s.asw.busy, s.asw.rie))
      = some ([(0x0022, 0xCC)], 0, false, false) := by decide

/-! ## Witnesses: a state and operands that meet the hypotheses of each statement -/

theorem witness_DecodeOfEncodeIsTheCommand :
    wellFormed true (.norm 0x1234 (-128)) = true ∧ wellFormed true (.inv 0x8000 127) = true
      ∧ wellFormed true (.swrite 1 2 3) = true ∧ wellFormed false .cget = true := by decide

theorem witness_CommandLengthFromFirstWord :
    decode true [0x20030100, 0xDEAD0020] = .ok (.swrite 0x0100 0x0020 3) []
      ∧ decode false [0x13000000, 0x12000000] = .ok .cstat [0x12000000]
      ∧ (0x20030100 : Word32).toNat / 2 ^ 24 = 0x20 := by decide

/-- Words at both ends of the signed operand and with every ignored bit set. -/
theorem witness_OperandsAreTakenFromThePacket :
    (0x047F1234 : Word32).toNat / 2 ^ 16 % 2 ^ 8 = 127 ∧ (0x05801234 : Word32).toNat / 2 ^ 16 % 2 ^ 8 = 128
      ∧ (∀ n ∈ [0x01, 0x02, 0x03, 0x04, 0x05, 0x06, 0x07, 0x10, 0x11, 0x12, 0x13, 0x20, 0x21],
          (BitVec.ofNat 32 (n * 2 ^ 24 + 0xFFFFFF)).toNat / 2 ^ 24 = n) := by decide

theorem witness_IgnoredBitsHaveNoEffect :
    opField 0x01F20000 = 0x01 ∧ opField 0x02AB5A02 = 0x02 ∧ opField 0x03010000 = 0x03 ∧ opField 0x04FC1234 = 0x04
      ∧ opField 0x051F8000 = 0x05 ∧ opField 0x06FF0000 = 0x06 ∧ opField 0x07FF0000 = 0x07
      ∧ opField 0x10FFBEEF = 0x10 ∧ opField 0x11F30000 = 0x11 ∧ opField 0x12FFFFFF = 0x12
      ∧ opField 0x13000001 = 0x13 ∧ opField 0x20030100 = 0x20 ∧ opField 0x21FFFFFF = 0x21 := by decide

theorem witness_UndefinedOpcodeAnswersIllegal :
    base.cap.gpend = false ∧ base.rst = false ∧ base.held = none ∧ base.params.hasAsw = true
      ∧ bare.cap.gpend = false ∧ bare.rst = false ∧ bare.held = none ∧ bare.params.hasAsw = false
      ∧ (∀ n ∈ [0x00, 0x08, 0x0F, 0x14, 0x1F, 0x22, 0xFF],
          n ∉ [0x01, 0x02, 0x03, 0x04, 0x05, 0x06, 0x07, 0x10, 0x11, 0x12, 0x13] ∧ n ∉ [0x20, 0x21])
      ∧ (0x20030100 : Word32).toNat / 2 ^ 24
          ∉ [0x01, 0x02, 0x03, 0x04, 0x05, 0x06, 0x07, 0x10, 0x11, 0x12, 0x13] := by decide

theorem witness_StepRunsTheDecodedCommand :
    base.cap.gpend = false ∧ base.rst = false ∧ base.held = none
      ∧ decode base.params.hasAsw [0x01025A00] = .ok (.compose 0x5A00 2) []
      ∧ decode base.params.hasAsw [0x20030100, 0x00000020] = .ok (.swrite 0x0100 0x0020 3) []
      ∧ { base with held := some 0x20030100 }.held = some 0x20030100 := by decide

theorem witness_WordZeroOfSwriteIsHeld :
    base.cap.gpend = false ∧ base.rst = false ∧ base.held = none ∧ base.params.hasAsw = true
      ∧ (0x20030100 : Word32).toNat / 2 ^ 24 = 0x20 := by decide

theorem witness_WordZeroOfSwriteIsHeld_event :
    ∃ s t : State, s.moves = [.cmp] ∧ s.held = some 0x20030100 ∧ step s = .next t :=
  ⟨{ base with moves := [.cmp], held := some 0x20030100 }, _, rfl, rfl, rfl⟩

theorem witness_ClosedPortTakesNoWord :
    (sampling 0 3 [.word 0x13000000]).cap.gpend = true ∧ (sampling 0 3 [.word 0x13000000]).moves = [.word 0x13000000]
      ∧ { base with rst := true, moves := [Move.word 0] }.rst = true := by decide

theorem witness_OneResponseAndNoEffectWithoutOk :
    ∃ t : State, step { base with moves := [.word 0x11000000] } = .next t
      ∧ t.responses = [{ status := .illegal, value := 0 }] := ⟨_, rfl, rfl⟩

/-- R115 at the ends of its ranges: -16, -15, -1, 0, 15, 16 without and with saturation. -/
theorem witness_NormClosedForm :
    normalize 0xFFFF (-16) = 0 ∧ normalize 0xFFFF (-15) = 0 ∧ normalize 0x1234 (-1) = 0x0910
      ∧ normalize 0x1234 0 = 0x1230 ∧ normalize 0x1234 15 = 0x123F ∧ normalize 0x7FFF 16 = 0xFFFF
      ∧ normalize 0x0001 16 = 0x000F ∧ normalize 0x8000 16 = 0xFFFF := by decide

theorem witness_InverseOfZeroSignificand : (0x0000 : Half).toNat < 16 ∧ (0x000F : Half).toNat < 16 := by decide

theorem witness_RestoringDivisionLoopInvariant :
    (1 ≤ (1 : BitVec 17).toNat ∧ (1 : BitVec 17).toNat ≤ 0xFFF1) ∧ (0xFFF1 : BitVec 17).toNat ≤ 0xFFF1
      ∧ (1 : Nat) ≤ 1 ∧ (32 : Nat) ≤ 32 := by decide

theorem witness_RestoringDivisionTerminates :
    (1 ≤ (17 : BitVec 17).toNat ∧ (17 : BitVec 17).toNat ≤ 0xFFF1 ∧ 17 ≤ (17 : BitVec 17).toNat)
      ∧ restoringDivide 17 = { d := 17, rem := 1, q := 0xF0F, n := 17 } := by decide +kernel

/-- R145 at the ends of its ranges (0x8000: `E = x - 31`): 16, 15, 0, -1, -15, -16, and the smallest significand. -/
theorem witness_InverseClosedForm :
    invResult 0x8000 47 (restoringDivide (divisor 0x8000)) = 0xFFFF
      ∧ invResult 0x8000 46 (restoringDivide (divisor 0x8000)) = 0xFFFF
      ∧ invResult 0x8000 31 (restoringDivide (divisor 0x8000)) = 0xFFF0
      ∧ invResult 0x8000 20 (restoringDivide (divisor 0x8000)) = 0x0010
      ∧ invResult 0x8000 16 (restoringDivide (divisor 0x8000)) = 0
      ∧ invResult 0x8000 15 (restoringDivide (divisor 0x8000)) = 0
      ∧ invResult 0x0010 35 (restoringDivide (divisor 0x0010)) = 0xF0FF
      ∧ (0x0010 : Half).toNat / 16 * 16 ≠ 0 ∧ (0x000F : Half).toNat / 16 * 16 = 0 := by decide +kernel

/-- `E` of R144 for 0x0010 (`L = clog2 17 = 5`) is 0 at extra shift 20 and 15 at 35. -/
theorem witness_InverseAccuracy :
    16 ≤ (0x0010 : Half).toNat ∧ (0x0010 : Half).toNat / 16 * 16 + 1 = 17 ∧ Nat.clog 2 17 = 5
      ∧ (20 : Int) - 0 - 5 - 15 = 0 ∧ (35 : Int) - 0 - 5 - 15 = 15 := by
  refine ⟨by decide, by decide, ?_, by decide, by decide⟩
  have h1 := (Nat.clog_le_iff_le_pow (b := 2) (by decide) (x := 17) (y := 5)).2 (by decide)
  have h2 : ¬ Nat.clog 2 17 ≤ 4 := fun h =>
    absurd ((Nat.clog_le_iff_le_pow (b := 2) (by decide) (x := 17) (y := 4)).1 h) (by decide)
  omega

theorem witness_FixedPointCommandsReadNoState : ∃ i : Instr, ∃ f x, i = .inv f x := ⟨.inv 0x5A02 30, _, _, rfl⟩

theorem witness_FixedPointCommandsFrame :
    (∃ t : State, exec (.compose 0x5A00 2) base = .next t) ∧ ∃ t : State, exec (.inv 0x0000 30) base = .next t :=
  ⟨⟨_, rfl⟩, _, rfl⟩

theorem witness_CstartBeginsACapture :
    (0 : Nibble).toNat = 0 ∧ (1 : Nibble).toNat ≠ 0 ∧ (15 : Nibble).toNat ≠ 0 := by decide

/-- Both ends of the prescaler's range, the raw sample at and just below the threshold 16, and both ways in which the
step is not enabled. -/
theorem witness_CgetCompletionAnswersTheSample :
    (∀ s ∈ [ended .completeOverflow 0xFF 15, ended .completeOverflow 0xFF 1, ended .complete 15 1,
          ended .complete 16 15],
        s.moves = [.sequencer] ∧ s.rst = false ∧ s.cap.gpend = true ∧ s.cap.cstate ≠ .sampling
          ∧ 1 ≤ s.cap.gpUsed.toNat)
      ∧ base.cap.gpend = false ∧ base.rst = false ∧ (sampling 0 3 [.sequencer]).cap.cstate = .sampling := by decide

theorem witness_InverseLeavesTheLoopsRegisters :
    (0x000F : Half).toNat / 16 * 16 = 0 ∧ (0x0010 : Half).toNat / 16 * 16 = 16
      ∧ (0xFFFF : Half).toNat / 16 * 16 + 1 = 0xFFF1 := by decide

theorem witness_ComparatorEdgeLatchesTheCount :
    ((sampling 0 3 [.cmp]).cap.cie = true ∧ (sampling 0 3 [.cmp]).cap.cstate = .sampling)
      ∧ base.cap.cie = false ∧ (ended .complete 1 3).cap.cstate ≠ .sampling ∧ (sampling 0 3 [.cmp]).rst = false
      ∧ (sampling 0 3 [.cmp]).moves = [.cmp] := by decide

theorem witness_TimerClockCountsAndOverflows :
    (sampling 0xFE 3 [.tick]).cap.tdiv.toNat ≠ 0 ∧ (sampling 0xFE 3 [.tick]).cap.tcnt.toNat ≠ 0xFF
      ∧ (sampling 0xFF 1 [.tick]).cap.tcnt.toNat = 0xFF ∧ (sampling 0xFF 1 [.tick]).cap.cstate = .sampling
      ∧ { base with cap.tdiv := 1, cap.tcnt := 0xFF }.cap.cstate ≠ .sampling ∧ base.cap.tdiv.toNat = 0
      ∧ (sampling 0xFF 1 [.tick]).moves = [.tick] ∧ (sampling 0xFF 1 [.tick]).rst = false := by decide

theorem witness_CaptureCommandsFrame :
    (∃ t : State, exec .cstat base = .next t) ∧ (∃ t : State, exec (.creset true) base = .next t)
      ∧ (∃ t : State, exec (.cstart 0) base = .next t) ∧ (∃ t : State, exec (.cstart 15) base = .next t)
      ∧ ∃ t : State, exec .cget base = .next t := ⟨⟨_, rfl⟩, ⟨_, rfl⟩, ⟨_, rfl⟩, ⟨_, rfl⟩, _, rfl⟩

theorem witness_CaptureEventsFrame :
    (∃ t : State, step (sampling 0 3 [.cmp]) = .next t) ∧ ∃ t : State, step (sampling 0xFF 3 [.tick]) = .next t :=
  ⟨⟨_, rfl⟩, _, rfl⟩

theorem witness_CaptureAlwaysTerminates :
    ∃ (s : State) (ms : List Move), ms = [.cmp, .tick, .word 0x13000000, .sourcePut 1 2, .tick]
      ∧ s.cap.cstate = .sampling ∧ s.cap.tdiv.toNat ≠ 0 ∧ s.rst = false ∧ s.moves = ms ++ [.sequencer]
      ∧ 256 - s.cap.tcnt.toNat ≤ ms.count .tick
      ∧ ∀ m ∈ ms, m ∈ [Move.tick, Move.cmp, Move.srdy, Move.sequencer] ∨ (∃ a b, m = .sourcePut a b)
        ∨ (s.cap.gpend = false ∧ s.held = none ∧ ∃ w, m = .word w ∧ w.toNat / 2 ^ 24 ∉ [0x10, 0x11, 0x12]) := by
  refine ⟨{ sampling 0xFE 3 [.cmp, .tick, .word 0x13000000, .sourcePut 1 2, .tick, .sequencer] with cap.gpend := false },
    _, rfl, rfl, by decide, rfl, rfl, by decide, ?_⟩
  intro m hm
  simp only [List.mem_cons, List.not_mem_nil, or_false] at hm
  rcases hm with rfl | rfl | rfl | rfl | rfl
  · exact .inl (by decide)
  · exact .inl (by decide)
  · exact .inr (.inr ⟨rfl, rfl, _, rfl, by decide⟩)
  · exact .inr (.inl ⟨_, _, rfl⟩)
  · exact .inl (by decide)

/-- The same with a CGET pending, no word among the moves, and the schedule empty after them. -/
theorem witness_CaptureAlwaysTerminates_pending :
    (sampling 0xFE 3 [.tick, .srdy, .tick]).cap.gpend = true ∧ (sampling 0xFE 3 [.tick, .srdy, .tick]).cap.cstate = .sampling
      ∧ (sampling 0xFE 3 [.tick, .srdy, .tick]).cap.tdiv.toNat ≠ 0 ∧ (sampling 0xFE 3 [.tick, .srdy, .tick]).rst = false
      ∧ (sampling 0xFE 3 [.tick, .srdy, .tick]).moves = [.tick, .srdy, .tick] ++ []
      ∧ 256 - (sampling 0xFE 3 [.tick, .srdy, .tick]).cap.tcnt.toNat ≤ [Move.tick, .srdy, .tick].count .tick
      ∧ ∀ m ∈ [Move.tick, .srdy, .tick], m ∈ [Move.tick, Move.cmp, Move.srdy, Move.sequencer] := by decide

theorem witness_SampleIsNeverTheSentinel :
    (∃ t : State, step (ended .complete 0xFF 1) = .next t)
      ∧ (∃ t : State, step (ended .completeOverflow 0xFF 15) = .next t)
      ∧ 1 ≤ (ended .complete 0xFF 1).cap.gpUsed.toNat ∧ (ended .complete 0xFF 1).moves = [.sequencer] :=
  ⟨⟨_, rfl⟩, ⟨_, rfl⟩, by decide, rfl⟩

theorem witness_CaptureOutcomeBeforeOverflow :
    base.cap.tcnt.toNat = 0 ∧ 1 ≤ base.cap.presc.toNat ∧ base.cap.gpend = false ∧ base.rst = false
      ∧ base.held = none ∧ (255 : Nat) ≤ 255 := by decide

theorem witness_CaptureOutcomeOnOverflow :
    ∃ s : State, s.moves = .word 0x12000000 :: (List.replicate 256 .tick ++ [.sequencer]) ∧ s.cap.tcnt.toNat = 0
      ∧ 1 ≤ s.cap.presc.toNat ∧ s.cap.gpend = false ∧ s.rst = false ∧ s.held = none :=
  ⟨{ base with moves := .word 0x12000000 :: (List.replicate 256 .tick ++ [.sequencer]) }, rfl, by decide, by decide,
    rfl, rfl, rfl⟩

theorem witness_EitherEventFirstAtTheBoundary :
    (sampling 0xFF 2 [.cmp, .tick]).cap.cie = true ∧ (sampling 0xFF 2 [.cmp, .tick]).cap.tdiv.toNat ≠ 0
      ∧ (sampling 0xFF 2 [.cmp, .tick]).cap.tcnt.toNat = 0xFF ∧ (sampling 0xFF 2 [.tick, .cmp]).moves = [.tick, .cmp]
      ∧ (sampling 0xFF 2 [.cmp, .tick]).rst = false ∧ (sampling 0xFF 2 [.cmp, .tick]).cap.cstate = .sampling := by
  decide

/-- Every transition of R160 happens, from states whose port holds nothing. -/
theorem witness_OnlyTheseTransitionsOfTheCaptureState :
    (capOf (step { base with moves := [.word 0x10000000] })).map CaptureRegs.cstate = some .ready
      ∧ (capOf (step { base with moves := [.word 0x11030000] })).map CaptureRegs.cstate = some .sampling
      ∧ (capOf (step { base with moves := [.word 0x12000000] })).map CaptureRegs.cstate = some .sampling
      ∧ (capOf (step (sampling 0 3 [.cmp]))).map CaptureRegs.cstate = some .complete
      ∧ (capOf (step (sampling 0xFF 3 [.tick]))).map CaptureRegs.cstate = some .completeOverflow
      ∧ (capOf (step (sampling 0 3 [.assertReset]))).map CaptureRegs.cstate = some .idle
      ∧ base.held = none ∧ (sampling 0 3 []).held = none := by decide

theorem captureInv_base : CaptureInv base.cap :=
  ⟨by decide, by decide, by decide, by decide, by decide⟩

theorem captureInv_ended : CaptureInv (ended .completeOverflow 0xFF 3).cap :=
  ⟨by decide, by decide, by decide, by decide, by decide⟩

theorem witness_OnlyTheCompletionStepMovesThePrescaler :
    CaptureInv (ended .completeOverflow 0xFF 3).cap
      ∧ (capOf (step (ended .completeOverflow 0xFF 3))).map CaptureRegs.presc = some 4
      ∧ (capOf (step (sampling 0 9 [.assertReset]))).map CaptureRegs.presc = some 3 :=
  ⟨captureInv_ended, by decide, by decide⟩

theorem witness_SwriteRecordsTheDescriptor :
    (transferring 3 []).asw.busy = true ∧ base.asw.busy = false ∧ (0 : Byte).toNat = 0 ∧ (1 : Byte).toNat ≠ 0
      ∧ (255 : Byte).toNat ≠ 0 := by decide

theorem witness_SdoneReadsTheBusyFlag : base.asw.busy = false ∧ (transferring 1 []).asw.busy = true := by decide

theorem witness_StorageCommandsFrame :
    (∃ t : State, exec .sdone base = .next t) ∧ ∃ t : State, exec (.swrite 0x0100 0x0020 3) base = .next t :=
  ⟨⟨_, rfl⟩, _, rfl⟩

theorem witness_StorageReadyMovesOneByte :
    ((transferring 3 [.srdy]).asw.rie = true ∧ 1 ≤ (transferring 3 [.srdy]).asw.rem.toNat
        ∧ (transferring 3 [.srdy]).asw.rem.toNat ≤ (transferring 3 [.srdy]).asw.len.toNat)
      ∧ (transferring 1 [.srdy]).asw.rem.toNat = 1 ∧ base.asw.rie = false ∧ (transferring 3 [.srdy]).rst = false
      ∧ (transferring 3 [.srdy]).params.hasAsw = true ∧ (transferring 3 [.srdy]).moves = [.srdy] := by decide

/-- With other events, a change of the source space and an SDONE between the pulses. -/
theorem witness_TransferCompletesInItsLength :
    ∃ (s : State) (ms : List Move), ms = [.srdy, .cmp, .sourcePut 0x0101 0x11, .srdy, .word 0x21000000, .tick]
      ∧ s.params.hasAsw = true ∧ s.rst = false ∧ s.asw.busy = true ∧ s.asw.rie = true ∧ 1 ≤ s.asw.len.toNat
      ∧ s.asw.rem = s.asw.len ∧ s.moves = ms ++ .srdy :: [] ∧ ms.count .srdy + 1 = s.asw.len.toNat
      ∧ Move.assertReset ∉ ms ∧ ∃ t : State, Sys2Proof.core.run (ms.length + 1) s = .next t :=
  ⟨transferring 3 [.srdy, .cmp, .sourcePut 0x0101 0x11, .srdy, .word 0x21000000, .tick, .srdy], _, rfl, rfl, rfl, rfl,
    rfl, by decide, rfl, rfl, by decide, by decide, _, rfl⟩

/-- A transfer of three bytes of which one is written. -/
theorem witness_EveryStepKeepsTheOrderOfWrites :
    ∃ s t : State, TransferInv s ∧ s.asw.busy = true ∧ s.asw.rem.toNat < s.asw.len.toNat ∧ s.moves = [.srdy]
      ∧ step s = .next t :=
  ⟨{ transferring 2 [.srdy] with nvmLog := [{ off := 0x0020, byte := 0xAA }] }, _,
    ⟨by decide, by decide⟩, by decide, by decide, rfl, rfl⟩

theorem witness_OnlyStorageReadyWritesTheNonVolatileSpace :
    ∃ t : State, step (transferring 3 [.srdy]) = .next t ∧ t.nvm = [(0x0020, 0xAA)] := ⟨_, rfl, by decide⟩

theorem witness_HostPutsASourceByte :
    { base with moves := [Move.sourcePut 0xFFFF 0x11] }.moves = [.sourcePut 0xFFFF 0x11] := by decide

theorem witness_ResetAbandonsWhatIsInProgress :
    (sampling 0x5A 3 [.assertReset]).moves = [.assertReset] ∧ (sampling 0x5A 3 [.assertReset]).cap.gpend = true
      ∧ (transferring 2 [.assertReset]).asw.busy = true := by decide

theorem witness_ResetHoldsTheBlock :
    { base with rst := true, moves := [Move.releaseReset] }.rst = true
      ∧ { base with rst := true, moves := [Move.tick] }.moves = [.tick] := by decide

/-- The state after reset meets the invariant. -/
theorem witness_EveryStepKeepsTheInvariant : Inv base ∧ ∃ t : State, step base = .next t :=
  ⟨{ capture := captureInv_base
     ready := ⟨by decide, by decide, by decide⟩
     storage := ⟨by decide, by decide, by decide⟩
     port := fun w h => by simp [base, State.resetWith] at h
     inReset := fun h => by simp [base, State.resetWith] at h
     memory := ⟨by decide, by decide⟩
     lastWrite := fun _ => rfl }, _, rfl⟩

theorem witness_NoStepChangesTheParameters :
    ∃ t : State, step { base with moves := [.assertReset] } = .next t := ⟨_, rfl⟩

theorem witness_EndOfRunIsFinal :
    Inv base ∧ runOver base = true
      ∧ (∀ m ∈ [Move.cmp, Move.tick, Move.srdy, Move.sequencer], runOver { base with moves := [m] } = true) :=
  ⟨witness_EveryStepKeepsTheInvariant.1, by decide, by decide⟩

/-- R225, clause 1: with a command still to come the run is not over, nor with half a command issued. -/
theorem test_runOver_command_to_come :
    runOver { base with moves := [.word 0x10000000] } = false
      ∧ runOver { base with moves := [.cmp, .word 0x10000000] } = false
      ∧ runOver { base with held := some 0x20030100 } = false := by decide

theorem witness_OverflowComesAfterTheRemainingCounts :
    (1 : Nibble).toNat ≠ 0 ∧ 1 ≤ base.cap.presc.toNat ∧ base.rst = false ∧ base.cap.gpend = false
      ∧ { base with cap.tcnt := 0x5A }.cap.tcnt.toNat = 90 ∧ { base with cap.tcnt := 0xFF }.cap.gpend = false := by decide

end Sys2Proof.Tests
end

section
/-! PROOF. The outputs of the block (10_state.md R36): what each signal that combines or compares state says, and the
statement of the family. -/

namespace Sys2Proof.Proofs

open Sys2Proof.Machine

@[simp] theorem isSampling_iff (s : State) : isSampling s = true ↔ s.cap.cstate = .sampling := beq_iff_eq

theorem timerRuns_iff (s : State) : timerRuns s = true ↔ s.cap.tdiv.toNat ≠ 0 :=
  bne_iff_ne.trans BitVec.toNat_ne_iff_ne.symm

@[simp] theorem cmpEdgeSelOut_iff (s : State) : cmpEdgeSelOut s = true ↔ s.cap.edge = .rising := beq_iff_eq

@[simp] theorem idleOut_iff (s : State) : idleOut s = true ↔ s.cap.gpend = true ∧ s.cap.cstate = .sampling := by
  rw [idleOut, Bool.and_eq_true, isSampling_iff]

@[simp] theorem cmdReady_iff (s : State) : cmdReady s = true ↔ s.cap.gpend = false ∧ s.rst = false := by
  rw [cmdReady, Bool.and_eq_true, Bool.not_eq_true', Bool.not_eq_true']

@[simp] theorem nvmRieOut_iff (s : State) : nvmRieOut s = true ↔ s.params.hasAsw = true ∧ s.asw.rie = true := by
  rw [nvmRieOut, Bool.and_eq_true]

/-- Settles O30: a signal that is a register as it stands holds by definition, each other one by its lemma. -/
theorem outputsAreFunctionsOfState : Obligations.OutputsAreFunctionsOfState := fun s =>
  ⟨Iff.rfl, Iff.rfl, cmpEdgeSelOut_iff s, Iff.rfl, timerRuns_iff s, rfl, idleOut_iff s, cmdReady_iff s,
    nvmRieOut_iff s⟩

end Sys2Proof.Proofs
end

section
/-! PROOF. The encoding (30_encoding.md R83, R85 to R88): which row `op` selects, what decoding takes from a row's
packet and what it passes over, and the statements of the family. -/

namespace Sys2Proof.Proofs

open Sys2Proof.Machine Sys2Proof.Laws

/-! ## The row that `op` selects -/

/-- A row of the block is selected by its value of `op`, and its operands are then taken. -/
theorem decode_of_op {hasAsw : Bool} {w : Word32} (o : Opcode) (rest : List Word32)
    (hrow : (hasAsw || !o.needsAsw) = true) (hop : w.toNat / 2 ^ 24 = o.code.toNat) :
    decode hasAsw (w :: rest) = decodeOperands o w rest := by
  have hcode : opField w = o.code := BitVec.eq_of_toNat_eq ((opField_toNat w).trans hop)
  exact decode_some rest (hcode ▸ ofCode_code hasAsw o hrow)

/-- What is decoded was selected by `op` from the rows of the block. -/
theorem decode_ok {hasAsw : Bool} {w : Word32} {tail rest : List Word32} {i : Instr}
    (h : decode hasAsw (w :: tail) = .ok i rest) :
    ∃ o, Opcode.ofCode hasAsw (opField w) = some o ∧ decodeOperands o w tail = .ok i rest := by
  cases ho : Opcode.ofCode hasAsw (opField w) with
  | none => rw [decode_none tail ho] at h; cases h
  | some o => exact ⟨o, rfl, decode_some tail ho ▸ h⟩

/-- A command has two words exactly when the row selected is SWRITE (R83). -/
theorem commandLength_of_row {hasAsw : Bool} {w : Word32} {o : Opcode}
    (ho : Opcode.ofCode hasAsw (opField w) = some o) : commandLength hasAsw w = 2 ↔ o = .swrite := by
  refine ⟨fun hlen => ?_, fun hsw => ofCode_swrite_length (hsw ▸ ho)⟩
  exact opcode_code_injective o .swrite ((ofCode_eq_some ho).1.trans (commandLength_eq_two.1 hlen).2)

/-- The length of a command, with `op` as a number. -/
theorem commandLength_eq_two_iff_op {hasAsw : Bool} {w : Word32} :
    commandLength hasAsw w = 2 ↔ hasAsw = true ∧ w.toNat / 2 ^ 24 = 0x20 := by
  rw [commandLength_eq_two, ← opField_toNat]
  exact and_congr_right fun _ => BitVec.toNat_inj.symm

/-! ## What is decoded -/

/-- `sext_8(b)` (R88). -/
theorem bField_toInt (w : Word32) {b : Nat} (hb : b = w.toNat / 2 ^ 16 % 2 ^ 8) :
    (bField w).toInt = if b < 128 then (b : Int) else b - 256 := by
  rw [BitVec.toInt_eq_toNat_cond, bField_toNat, ← hb]
  split <;> split <;> omega

/-- An 8-bit two's complement operand is in the range of `sext_8`. -/
theorem inSext8_toInt (b : Byte) : inSext8 b.toInt = true := by
  have := BitVec.le_toInt b
  have := BitVec.toInt_lt (x := b)
  simp only [inSext8, Bool.and_eq_true, decide_eq_true_eq]
  omega

/-- `b[3:0]` (R88). -/
theorem lowNibble_toNat (b : Byte) : (b.extractLsb' 0 4).toNat = b.toNat % 16 := by
  rw [BitVec.extractLsb'_toNat, Nat.shiftRight_zero]

/-- `b[0]` (R88). -/
theorem bit0_toNat (b : Byte) : (b.getLsbD 0).toNat = b.toNat % 2 := by
  rw [BitVec.getLsbD, Nat.toNat_testBit, Nat.pow_zero, Nat.div_one]

/-- SWRITE takes one word more, every other row none. -/
theorem decodeOperands_rest {o : Opcode} {w : Word32} {tail rest : List Word32} {i : Instr}
    (h : decodeOperands o w tail = .ok i rest) :
    (o = .swrite ∧ ∃ w1, tail = w1 :: rest) ∨ (o ≠ .swrite ∧ tail = rest) := by
  cases o
  case swrite =>
    cases tail with
    | nil => cases h
    | cons w1 tail => cases h; exact .inl ⟨rfl, w1, rfl⟩
  all_goals cases h; exact .inr ⟨by decide, rfl⟩

/-- The operands of a row of the block make a well-formed command. -/
theorem decodeOperands_wellFormed {hasAsw : Bool} {o : Opcode} {w : Word32} {tail rest : List Word32} {i : Instr}
    (hrow : (hasAsw || !o.needsAsw) = true) (h : decodeOperands o w tail = .ok i rest) :
    wellFormed hasAsw i = true := by
  cases o
  case norm => cases h; exact inSext8_toInt _
  case inv => cases h; exact inSext8_toInt _
  case swrite =>
    cases tail with
    | nil => cases h
    | cons w1 tail => cases h; exact (Bool.or_false hasAsw).symm.trans hrow
  case sdone => cases h; exact (Bool.or_false hasAsw).symm.trans hrow
  all_goals cases h; rfl

/-- Settles O3: the row selected says whether a second word is taken, and it is SWRITE exactly when the length of R83
is two. -/
theorem commandLengthFromFirstWord : Obligations.CommandLengthFromFirstWord := by
  intro hasAsw w0 tail i rest h
  obtain ⟨o, ho, hops⟩ := decode_ok h
  have htwo : (hasAsw = true ∧ w0.toNat / 2 ^ 24 = 0x20) ↔ o = .swrite :=
    commandLength_eq_two_iff_op.symm.trans (commandLength_of_row ho)
  refine ⟨decodeOperands_wellFormed (ofCode_eq_some ho).2 hops, ?_⟩
  simp only [htwo]
  obtain ⟨rfl, w1, rfl⟩ | ⟨hne, rfl⟩ := decodeOperands_rest hops
  · simp
  · simp [hne]

/-- Settles O4: `op` selects the row, whose operands are the packet's fields in numbers. -/
theorem operandsAreTakenFromThePacket : Obligations.OperandsAreTakenFromThePacket := by
  intro hasAsw w rest op a b sb hop ha hb hsb
  have hrow (o : Opcode) (tail : List Word32) (hex : (hasAsw || !o.needsAsw) = true) (hcode : op = o.code.toNat) :
      decode hasAsw (w :: tail) = decodeOperands o w tail := decode_of_op o tail hex (hop ▸ hcode)
  have ha' : (aField w).toNat = a := (aField_toNat w).trans ha.symm
  have hb' : (bField w).toNat = b := (bField_toNat w).trans hb.symm
  have hsb' : (bField w).toInt = sb := (bField_toInt w hb).trans hsb.symm
  have hnib : ((bField w).extractLsb' 0 4).toNat = b % 16 := hb' ▸ lowNibble_toNat (bField w)
  have hbit : ((bField w).getLsbD 0).toNat = b % 2 := hb' ▸ bit0_toNat (bField w)
  have hbase {o : Opcode} (h : o.needsAsw = false) : (hasAsw || !o.needsAsw) = true := by simp [h]
  refine ⟨?compose, ?exsig, ?exexp, ?norm, ?inv, ?toi16, ?toi32, ?creset, ?cstart, ?cget, ?cstat, ?swrite, ?sdone⟩
  case compose => exact fun h => ⟨_, _, hrow .compose rest (hbase rfl) h, ha', hnib⟩
  case exsig => exact fun h => ⟨_, hrow .exsig rest (hbase rfl) h, ha'⟩
  case exexp => exact fun h => ⟨_, hrow .exexp rest (hbase rfl) h, ha'⟩
  case norm => exact fun h => ⟨_, hsb' ▸ hrow .norm rest (hbase rfl) h, ha'⟩
  case inv => exact fun h => ⟨_, hsb' ▸ hrow .inv rest (hbase rfl) h, ha'⟩
  case toi16 => exact fun h => ⟨_, hrow .toi16 rest (hbase rfl) h, ha'⟩
  case toi32 => exact fun h => ⟨_, hrow .toi32 rest (hbase rfl) h, ha'⟩
  case creset => exact fun h => ⟨_, hrow .creset rest (hbase rfl) h, hbit⟩
  case cstart => exact fun h => ⟨_, hrow .cstart rest (hbase rfl) h, hnib⟩
  case cget => exact fun h => hrow .cget rest (hbase rfl) h
  case cstat => exact fun h => hrow .cstat rest (hbase rfl) h
  case swrite =>
    exact fun hasw h w1 => ⟨_, _, _, hrow .swrite (w1 :: rest) (by simp [hasw]) h, ha', aField_toNat w1, hb'⟩
  case sdone => exact fun hasw h => hrow .sdone rest (by simp [hasw]) h

/-! ## The bits a row ignores -/

theorem opField_and (w m : Word32) : opField (w &&& m) = opField w &&& opField m := BitVec.extractLsb'_and

theorem bField_and (w m : Word32) : bField (w &&& m) = bField w &&& bField m := BitVec.extractLsb'_and

/-- A mask that is all ones in bits 15:0 keeps `a`. -/
theorem aField_and_of_allOnes {m : Word32} (hm : aField m = BitVec.allOnes 16) (w : Word32) :
    aField (w &&& m) = aField w := by
  rw [aField, BitVec.extractLsb'_and, ← aField, ← aField, hm, BitVec.and_allOnes]

/-- The mask 0x0F keeps `b[3:0]`. -/
theorem lowNibble_and (b : Byte) : (b &&& 0x0F).extractLsb' 0 4 = b.extractLsb' 0 4 := by
  rw [BitVec.extractLsb'_and, show (0x0F : Byte).extractLsb' 0 4 = BitVec.allOnes 4 by decide, BitVec.and_allOnes]

/-- The mask 0x01 keeps `b[0]`. -/
theorem bit0_and (b : Byte) : (b &&& 0x01).getLsbD 0 = b.getLsbD 0 := by
  rw [BitVec.getLsbD_and, show (0x01 : Byte).getLsbD 0 = true by decide, Bool.and_true]

/-- The bits of word 0 that a row does not ignore (R85, R88). -/
def keptBits : Opcode → Word32
  | .compose => 0xFF0FFFFF
  | .exsig | .exexp | .toi16 | .toi32 => 0xFF00FFFF
  | .norm | .inv | .swrite => 0xFFFFFFFF
  | .creset => 0xFF010000
  | .cstart => 0xFF0F0000
  | .cget | .cstat | .sdone => 0xFF000000

/-- Every row keeps `op`. -/
theorem opField_keptBits (o : Opcode) (w : Word32) : opField (w &&& keptBits o) = opField w := by
  have hmask : opField (keptBits o) = BitVec.allOnes 8 := by cases o <;> decide
  rw [opField_and, hmask, BitVec.and_allOnes]

/-- A row's operands do not depend on the bits of word 0 it ignores. -/
theorem decodeOperands_keptBits (o : Opcode) (w : Word32) (rest : List Word32) :
    decodeOperands o (w &&& keptBits o) rest = decodeOperands o w rest := by
  have hb {o : Opcode} (m : Byte) (hm : bField (keptBits o) = m) :
      bField (w &&& keptBits o) = bField w &&& m := hm ▸ bField_and w (keptBits o)
  cases o
  case compose =>
    rw [decodeOperands, aField_and_of_allOnes (by decide), hb 0x0F (by decide), lowNibble_and, decodeOperands]
  case exsig | exexp | toi16 | toi32 => rw [decodeOperands, aField_and_of_allOnes (by decide), decodeOperands]
  case norm | inv | swrite => exact congrArg (decodeOperands _ · rest) BitVec.and_allOnes
  case creset => rw [decodeOperands, hb 0x01 (by decide), bit0_and, decodeOperands]
  case cstart => rw [decodeOperands, hb 0x0F (by decide), lowNibble_and, decodeOperands]
  case cget | cstat | sdone => rfl

/-- SWRITE's operands do not depend on bits 31:16 of word 1 (R82). -/
theorem decodeOperands_lowHalf_word1 (w w1 : Word32) (rest : List Word32) :
    decodeOperands .swrite w ((w1 &&& 0x0000FFFF) :: rest) = decodeOperands .swrite w (w1 :: rest) := by
  have hc : cField (w1 &&& 0x0000FFFF) = cField w1 := aField_and_of_allOnes (by decide) w1
  rw [decodeOperands, hc, decodeOperands]

/-- Where `op` is a row's, decoding depends on `op` and the row's operands only, in a block with or without the row. -/
theorem decode_congr {hasAsw : Bool} {o : Opcode} {w w' : Word32} {rest rest' : List Word32}
    (hcode : opField w = o.code) (hop : opField w' = opField w)
    (hops : decodeOperands o w' rest' = decodeOperands o w rest) :
    decode hasAsw (w :: rest) = decode hasAsw (w' :: rest') := by
  cases ho : Opcode.ofCode hasAsw (opField w) with
  | none => rw [decode_none rest ho, decode_none rest' (hop ▸ ho), hop]
  | some p =>
    obtain rfl : p = o := opcode_code_injective p o ((ofCode_eq_some ho).1.trans hcode)
    rw [decode_some rest ho, decode_some rest' (hop ▸ ho), hops]

/-- Settles O5: the table of the statement lists `keptBits`, and decoding depends on the kept bits only. -/
theorem ignoredBitsHaveNoEffect : Obligations.IgnoredBitsHaveNoEffect := by
  refine ⟨fun row hmem hasAsw w tail hop => ?_, fun hasAsw w w1 tail hop => ?_⟩
  · obtain ⟨o, -, rfl⟩ : ∃ o ∈ Opcode.all, (o.code, keptBits o) = row := List.mem_map.1 hmem
    exact decode_congr hop (opField_keptBits o w) (decodeOperands_keptBits o w tail)
  · exact decode_congr (o := .swrite) hop rfl (decodeOperands_lowHalf_word1 w w1 tail)

/-! ## Undefined opcodes -/

/-- A value of `op` that is no row of the block selects none (R87). -/
theorem ofCode_eq_none {hasAsw : Bool} {w : Word32}
    (hbase : w.toNat / 2 ^ 24 ∉ [0x01, 0x02, 0x03, 0x04, 0x05, 0x06, 0x07, 0x10, 0x11, 0x12, 0x13])
    (hasw : hasAsw = true → w.toNat / 2 ^ 24 ∉ [0x20, 0x21]) : Opcode.ofCode hasAsw (opField w) = none := by
  cases ho : Opcode.ofCode hasAsw (opField w) with
  | none => rfl
  | some o =>
    obtain ⟨hcode, hrow⟩ := ofCode_eq_some ho
    rw [← opField_toNat, ← hcode] at hbase hasw
    cases o
    case swrite | sdone => exact absurd (by decide) (hasw ((Bool.or_false hasAsw).symm.trans hrow))
    all_goals exact absurd (by decide) hbase

/-- An open port that holds no word runs a one-word command (R80, R83). -/
theorem acceptWord_single {w : Word32} {s : State} (hopen : cmdReady s = true) (hheld : s.held = none)
    (hlen : commandLength s.params.hasAsw w ≠ 2) : acceptWord w s = runCommand [w] s := by
  rw [acceptWord, if_pos hopen, hheld]
  exact if_neg hlen

/-- An undefined opcode is a one-word command. -/
theorem commandLength_of_undefined {hasAsw : Bool} {w : Word32} (h : Opcode.ofCode hasAsw (opField w) = none) :
    commandLength hasAsw w ≠ 2 := by
  intro hlen
  obtain ⟨hasw, hcode⟩ := commandLength_eq_two.1 hlen
  rw [hcode, ofCode_code hasAsw .swrite (by simp [hasw])] at h
  cases h

/-- An undefined opcode is answered ILLEGAL. -/
theorem runCommand_undefined {w : Word32} {s : State} (h : Opcode.ofCode s.params.hasAsw (opField w) = none) :
    runCommand [w] s = .next (answerIllegal s) := by
  rw [runCommand, decode_none [] h]

/-- Settles O6: the word selects no row, so the open port takes it as one word and answers it ILLEGAL. -/
theorem undefinedOpcodeAnswersIllegal : Obligations.UndefinedOpcodeAnswersIllegal := by
  intro s w rest hgpend hrst hheld hmoves hbase hasw
  have hundef : Opcode.ofCode s.params.hasAsw (opField w) = none := ofCode_eq_none hbase hasw
  calc step s
      = acceptWord w { s with moves := rest } := step_cons hmoves
    _ = runCommand [w] { s with moves := rest } :=
        acceptWord_single ((cmdReady_iff _).2 ⟨hgpend, hrst⟩) hheld (commandLength_of_undefined hundef)
    _ = .next (answerIllegal { s with moves := rest }) := runCommand_undefined hundef

end Sys2Proof.Proofs
end

section
/-! PROOF. The fixed-point format (40_fixedpoint.md R110 to R115): what packing and extraction do to each other, the
loops of `normalize` in each range of the exponent, and the statements of the family. -/

namespace Sys2Proof.Proofs

open Sys2Proof.Machine Sys2Proof.Laws

/-! ## What the commands answer -/

theorem exec_compose (sg : Half) (e : Nibble) (s : State) :
    exec (.compose sg e) s = .next (respond .ok (zext32 (pack sg e)) s) := rfl

theorem exec_exsig (w : Half) (s : State) : exec (.exsig w) s = .next (respond .ok (zext32 (sig w)) s) := rfl

theorem exec_exexp (w : Half) (s : State) : exec (.exexp w) s = .next (respond .ok (zext32 (expo w)) s) := rfl

theorem exec_norm (sg : Half) (e : Int) (s : State) :
    exec (.norm sg e) s = .next (respond .ok (zext32 (normalize sg e)) s) := rfl

/-- Two commands that answer one word in one state have the same result. -/
theorem respond_zext32_injective {v v' : Half} {st : Status} {s : State}
    (h : respond st (zext32 v) s = respond st (zext32 v') s) : v = v' := by
  have hword : zext32 v = zext32 v' :=
    congrArg Response.value (List.head_eq_of_cons_eq (congrArg State.responses h))
  exact BitVec.eq_of_toNat_eq (by rw [← zext32_toNat v, hword, zext32_toNat])

/-! ## Packing and extraction (R110 to R113) -/

/-- A 16-bit result is read back from `rsp[15:0]` (R84). -/
@[simp] theorem setWidth_zext32 (v : Half) : (zext32 v).setWidth 16 = v :=
  BitVec.setWidth_setWidth_of_le v (by decide)

/-- The significand packed is read back without its low four bits. -/
@[simp] theorem sig_pack (s : Half) (e : Nibble) : sig (pack s e) = sig s := by
  have := e.isLt
  apply BitVec.eq_of_toNat_eq
  rw [sig_toNat, pack_toNat, sig_toNat]
  omega

/-- The exponent packed is read back. -/
theorem expo_pack_toNat (s : Half) (e : Nibble) : (expo (pack s e)).toNat = e.toNat := by
  have := e.isLt
  rw [expo_toNat, pack_toNat]
  omega

/-- Packing what was extracted gives the word back. -/
theorem pack_sig_expo (w : Half) : pack (sig w) ((zext32 (expo w)).setWidth 4) = w := by
  apply BitVec.eq_of_toNat_eq
  rw [pack_toNat, sig_toNat, BitVec.toNat_setWidth, zext32_toNat, expo_toNat]
  omega

/-- A significand whose low four bits are zero is its own field. -/
theorem sig_eq_self {s : Half} (h : s.toNat % 16 = 0) : sig s = s := by
  apply BitVec.eq_of_toNat_eq
  rw [sig_toNat]
  omega

/-- Packing is one-to-one on the valid pairs. -/
theorem pack_injective_of_valid {s s' : Half} {e e' : Nibble} (hs : s.toNat % 16 = 0) (hs' : s'.toNat % 16 = 0)
    (h : pack s e = pack s' e') : s = s' ∧ e = e' := by
  constructor
  · rw [← sig_eq_self hs, ← sig_eq_self hs', ← sig_pack s e, h, sig_pack]
  · exact BitVec.eq_of_toNat_eq (by rw [← expo_pack_toNat s e, h, expo_pack_toNat])

/-- Settles O12: the word answered is the packed one. -/
theorem composeMasksAndPacks : Obligations.ComposeMasksAndPacks := fun sg e s =>
  ⟨_, exec_compose sg e s, (zext32_toNat _).trans (pack_toNat sg e)⟩

/-- Settles O13: each command answers its field. -/
theorem extractReadsTheFields : Obligations.ExtractReadsTheFields := fun w s =>
  ⟨⟨_, exec_exsig w s, (zext32_toNat _).trans (sig_toNat w)⟩,
    _, exec_exexp w s, (zext32_toNat _).trans (expo_toNat w)⟩

/-- Settles O14: the commands pack and extract the fields, which are read back, give the word back, and tell two
valid pairs apart. -/
theorem composeAndExtractRoundTrip : Obligations.ComposeAndExtractRoundTrip := by
  refine ⟨fun sg e s => ?extractOfCompose, fun w s => ?composeOfExtract, fun sg sg' e e' s hsg hsg' h => ?oneToOne⟩
  case extractOfCompose =>
    refine ⟨_, _, _, exec_compose sg e s, exec_exsig _ s, exec_exexp _ s, ?_, ?_⟩
    · rw [setWidth_zext32, zext32_toNat, sig_pack, sig_toNat]
    · rw [setWidth_zext32, zext32_toNat, expo_pack_toNat]
  case composeOfExtract =>
    refine ⟨_, _, _, exec_exsig w s, exec_exexp w s, exec_compose _ _ s, ?_⟩
    rw [setWidth_zext32, pack_sig_expo, zext32_toNat]
  case oneToOne =>
    rw [exec_compose, exec_compose] at h
    exact pack_injective_of_valid hsg hsg' (respond_zext32_injective (Host.Outcome.next.inj h))

/-! ## The ranges of `normalize` (R114, R115) -/

/-- The value of a word in numbers (00_scope.md R8). -/
theorem fpVal_eq (w : Half) : fpVal w = w.toNat / 16 * 16 * 2 ^ (w.toNat % 16) := by
  rw [fpVal, sig_toNat, expo_toNat]

/-- Packing only drops low bits of the significand. -/
theorem fpVal_pack_le (s : Half) (e : Nibble) : fpVal (pack s e) ≤ s.toNat * 2 ^ e.toNat := by
  rw [fpVal, sig_pack, expo_pack_toNat, sig_toNat]
  exact Nat.mul_le_mul_right _ (Nat.div_mul_le_self _ _)

/-- Below 0 the significand is shifted right, and the exponent is 0. -/
theorem normalize_of_neg (s : Half) {e : Int} (he : e < 0) :
    normalize s e = pack (shiftRightTurns (-e).toNat s) 0 := by
  obtain ⟨k, rfl⟩ := Int.eq_negSucc_of_lt_zero he
  rfl

/-- From 0 to 15 nothing is shifted. -/
theorem normalize_of_inRange (s : Half) {e : Int} (h0 : 0 ≤ e) (h15 : e ≤ 15) :
    normalize s e = pack s (BitVec.ofNat 4 e.toNat) := by
  obtain ⟨n, rfl⟩ := Int.eq_ofNat_of_zero_le h0
  exact if_pos (Int.ofNat_le.1 h15)

/-- Above 15 the significand is shifted left, and a lost bit saturates. -/
theorem normalize_of_gt (s : Half) {e : Int} (he : 15 < e) :
    normalize s e = (shiftLeftTurns (e - 15).toNat s).elim Config.fpMax (pack · 15) := by
  obtain ⟨n, rfl⟩ := Int.eq_ofNat_of_zero_le (by omega : 0 ≤ e)
  have hturns : ((n : Int) - 15).toNat = n - 15 := by omega
  rw [hturns]
  refine (if_neg (by omega)).trans ?_
  cases shiftLeftTurns (n - 15) s <;> rfl

theorem normalize_toNat_of_neg (s : Half) {e : Int} (he : e < 0) :
    (normalize s e).toNat = s.toNat / 2 ^ (-e).toNat / 16 * 16 := by
  rw [normalize_of_neg s he, pack_toNat, shiftRightTurns_toNat]
  rfl

/-- Sixteen right shifts or more leave nothing. -/
theorem normalize_toNat_of_le_neg16 (s : Half) {e : Int} (he : e ≤ -16) : (normalize s e).toNat = 0 := by
  have hpow : 2 ^ 16 ≤ 2 ^ (-e).toNat := Nat.pow_le_pow_right Nat.two_pos (by omega)
  rw [normalize_toNat_of_neg s (by omega), Nat.div_eq_of_lt (s.isLt.trans_le hpow)]

/-- An exponent from 0 to 15 fits its field. -/
theorem nibble_toNat {e : Int} (h15 : e ≤ 15) : (BitVec.ofNat 4 e.toNat).toNat = e.toNat := by
  rw [BitVec.toNat_ofNat, Nat.mod_eq_of_lt (by omega)]

theorem normalize_toNat_of_inRange (s : Half) {e : Int} (h0 : 0 ≤ e) (h15 : e ≤ 15) :
    (normalize s e).toNat = s.toNat / 16 * 16 + e.toNat := by
  rw [normalize_of_inRange s h0 h15, pack_toNat, nibble_toNat h15]

/-- Where the shifted significand does not fit 16 bits, the result is `FP_MAX`. -/
theorem normalize_of_saturates (s : Half) {e : Int} (he : 15 < e) (hs : 65536 ≤ s.toNat * 2 ^ (e - 15).toNat) :
    normalize s e = Config.fpMax := by
  rw [normalize_of_gt s he, shiftLeftTurns_none _ s hs, Option.elim_none]

/-- Where the shifted significand fits 16 bits, it is packed with the exponent 15. -/
theorem normalize_of_fits (s : Half) {e : Int} (he : 15 < e) (hs : s.toNat * 2 ^ (e - 15).toNat < 65536) :
    ∃ s' : Half, s'.toNat = s.toNat * 2 ^ (e - 15).toNat ∧ normalize s e = pack s' 15 := by
  obtain ⟨s', hturns, hval⟩ := shiftLeftTurns_some _ s hs
  exact ⟨s', hval, by rw [normalize_of_gt s he, hturns, Option.elim_some]⟩

theorem normalize_toNat_of_fits (s : Half) {e : Int} (he : 15 < e) (hs : s.toNat * 2 ^ (e - 15).toNat < 65536) :
    (normalize s e).toNat = s.toNat * 2 ^ (e - 15).toNat / 16 * 16 + 15 := by
  obtain ⟨s', hval, heq⟩ := normalize_of_fits s he hs
  rw [heq, pack_toNat, hval]
  rfl

/-! ## The value law (R115) -/

/-- Above 15, `s * 2^e` is the shifted significand with the exponent 15. -/
theorem mul_two_pow_toNat_of_gt (m : Nat) {e : Int} (he : 15 < e) :
    m * 2 ^ e.toNat = m * 2 ^ (e - 15).toNat * 2 ^ 15 := by
  rw [Nat.mul_assoc, ← pow_add, show (e - 15).toNat + 15 = e.toNat by omega]

/-- Where `normalize` saturates, `s * 2^e` exceeds the largest value of the format. -/
theorem fpVal_fpMax_lt_of_saturates (s : Half) {e : Int} (he : 15 < e)
    (hs : 65536 ≤ s.toNat * 2 ^ (e - 15).toNat) : fpVal Config.fpMax < s.toNat * 2 ^ e.toNat := by
  calc fpVal Config.fpMax
      < 65536 * 2 ^ 15 := by decide
    _ ≤ s.toNat * 2 ^ (e - 15).toNat * 2 ^ 15 := Nat.mul_le_mul_right _ hs
    _ = s.toNat * 2 ^ e.toNat := (mul_two_pow_toNat_of_gt _ he).symm

/-- The result never exceeds `s * 2^e`. -/
theorem fpVal_normalize_le (s : Half) {e : Int} (h0 : 0 ≤ e) : fpVal (normalize s e) ≤ s.toNat * 2 ^ e.toNat := by
  by_cases h15 : e ≤ 15
  · calc fpVal (normalize s e)
        = fpVal (pack s (BitVec.ofNat 4 e.toNat)) := by rw [normalize_of_inRange s h0 h15]
      _ ≤ s.toNat * 2 ^ (BitVec.ofNat 4 e.toNat).toNat := fpVal_pack_le s _
      _ = s.toNat * 2 ^ e.toNat := by rw [nibble_toNat h15]
  have he : 15 < e := by omega
  by_cases hs : 65536 ≤ s.toNat * 2 ^ (e - 15).toNat
  · rw [normalize_of_saturates s he hs]
    exact (fpVal_fpMax_lt_of_saturates s he hs).le
  · obtain ⟨s', hval, heq⟩ := normalize_of_fits s he (by omega)
    calc fpVal (normalize s e)
        = fpVal (pack s' 15) := by rw [heq]
      _ ≤ s'.toNat * 2 ^ 15 := fpVal_pack_le s' 15
      _ = s.toNat * 2 ^ e.toNat := by rw [hval, mul_two_pow_toNat_of_gt _ he]

/-- Settles O15: each range of the exponent has its lemma, and the value law holds in all of them. -/
theorem normClosedForm : Obligations.NormClosedForm := by
  intro sg e s
  refine ⟨_, exec_norm sg e s, ?_⟩
  rw [zext32_toNat]
  refine ⟨normalize_toNat_of_le_neg16 sg, fun _ hneg => ?right, normalize_toNat_of_inRange sg,
    fun he hs => ?saturates, normalize_toNat_of_fits sg, fun h0 => ?value⟩
  case right =>
    have hval := normalize_toNat_of_neg sg hneg
    refine ⟨hval, ?_⟩
    calc (normalize sg e).toNat * 2 ^ (-e).toNat
        ≤ sg.toNat / 2 ^ (-e).toNat * 2 ^ (-e).toNat :=
          Nat.mul_le_mul_right _ (hval ▸ Nat.div_mul_le_self _ _)
      _ ≤ sg.toNat := Nat.div_mul_le_self _ _
  case saturates =>
    exact ⟨by rw [normalize_of_saturates sg he hs]; rfl, fpVal_fpMax_lt_of_saturates sg he hs⟩
  case value => exact fpVal_eq (normalize sg e) ▸ fpVal_normalize_le sg h0

end Sys2Proof.Proofs
end

section
/-! PROOF. The restoring division (41_reciprocal.md R142, R143): the loop invariant in numbers, the iteration at which
the quotient reaches its target precision, and the statement of the family. -/

namespace Sys2Proof.Proofs

open Sys2Proof.Machine Sys2Proof.Laws

/-! ## The loop invariant (R142) -/

/-- The part of the "implicit large numerator" consumed after `k` iterations: a 1 followed by zeros (R142). -/
def numerator : Nat → Nat
  | 0 => 0
  | k + 1 => 2 ^ k

/-- An iteration brings in the next bit of the numerator, which is 1 in the first iteration only. -/
theorem numerator_succ (k : Nat) : numerator (k + 1) = 2 * numerator k + if k = 0 then 1 else 0 := by
  cases k with
  | zero => rfl
  | succ k => simp only [numerator, pow_succ', k.succ_ne_zero, if_false, Nat.add_zero]

/-- The working registers before the first iteration. -/
def divStart (d : BitVec 17) : InvRegs := { d := d, rem := 0, q := 0, n := 0 }

/-- The loop invariant of R142 after `k` iterations; the quotient register keeps 12 bits. -/
structure LoopInv (d : BitVec 17) (k : Nat) (r : InvRegs) : Prop where
  divisor_eq : r.d = d
  count_eq : r.n.toNat = k
  rem_eq : r.rem.toNat = numerator k % d.toNat
  quotient_eq : r.q.toNat = numerator k / d.toNat % 2 ^ 12

/-- Compare and subtract: while a remainder is below twice the divisor, the quotient bit is one comparison. -/
theorem div_of_lt_two_mul {s d : Nat} (hs : s < 2 * d) : s / d = if d ≤ s then 1 else 0 := by
  split
  · exact Nat.div_eq_of_lt_le (by omega) (by omega)
  · exact Nat.div_eq_of_lt (by omega)

/-- Compare and subtract: while a remainder is below twice the divisor, one subtraction restores it. -/
theorem mod_of_lt_two_mul {s d : Nat} (hs : s < 2 * d) : s % d = if d ≤ s then s - d else s := by
  split
  · rw [Nat.mod_eq_sub_mod ‹_›, Nat.mod_eq_of_lt (by omega)]
  · exact Nat.mod_eq_of_lt (by omega)

theorem loopInv_start (d : BitVec 17) : LoopInv d 0 (divStart d) := by
  constructor <;> simp [divStart, numerator]

/-- One iteration keeps the invariant: the numerator is `D` times the doubled quotient and the shifted remainder,
which is below `2 * D`. -/
theorem loopInv_divIter {d : BitVec 17} (hpos : 1 ≤ d.toNat) (hd : d.toNat ≤ 2 ^ 16) {k : Nat} {r : InvRegs}
    (h : LoopInv d k r) (hk : k < 63) : LoopInv d (k + 1) (divIter r) := by
  obtain ⟨hdiv, hcount, hrem, hquot⟩ := h
  have hlt : numerator k % d.toNat < d.toNat := Nat.mod_lt _ hpos
  obtain ⟨hd', hn', hrem', hq'⟩ :=
    divIter_toNat r (.inl (hrem ▸ hdiv ▸ hlt)) (hdiv ▸ hd) (hcount ▸ hk)
  have hshift : shiftedRem r = 2 * (numerator k % d.toNat) + if k = 0 then 1 else 0 := by
    rw [shiftedRem, hrem, hcount]
  have hbelow : shiftedRem r < 2 * d.toNat := by rw [hshift]; split <;> omega
  have hnum : numerator (k + 1) = shiftedRem r + d.toNat * (2 * (numerator k / d.toNat)) := by
    rw [hshift, numerator_succ, Nat.mul_left_comm]
    have := Nat.mod_add_div (numerator k) d.toNat
    omega
  rw [hdiv] at hrem' hq'
  refine ⟨hd'.trans hdiv, by rw [hn', hcount], ?remainder, ?quotient⟩
  case remainder => rw [hrem', hnum, Nat.add_mul_mod_self_left, mod_of_lt_two_mul hbelow]
  case quotient =>
    rw [hq', hquot, hnum, Nat.add_mul_div_left _ _ hpos, div_of_lt_two_mul hbelow]
    omega

/-- The loop invariant of R142 holds after every iteration that the count register can count. -/
theorem loopInv_iterate {d : BitVec 17} (hpos : 1 ≤ d.toNat) (hd : d.toNat ≤ 2 ^ 16) {k : Nat} (hk : k ≤ 63) :
    LoopInv d k (divIter^[k] (divStart d)) := by
  induction k with
  | zero => exact loopInv_start d
  | succ k ih =>
    rw [Function.iterate_succ_apply']
    exact loopInv_divIter hpos hd (ih (by omega)) hk

/-! ## Where the loop stops (R143) -/

/-- `clog2(D)` says which power of two is the first to reach `2^p * D`. -/
theorem two_pow_mul_le_two_pow_iff {d : Nat} (hpos : 0 < d) (p k : Nat) :
    2 ^ p * d ≤ 2 ^ k ↔ Nat.clog 2 d + p ≤ k := by
  by_cases hpk : p ≤ k
  · obtain ⟨j, rfl⟩ := Nat.exists_eq_add_of_le hpk
    rw [pow_add, Nat.mul_le_mul_left_iff (Nat.two_pow_pos p), ← Nat.clog_le_iff_le_pow Nat.one_lt_two]
    omega
  · have hlt : 2 ^ k < 2 ^ p := Nat.pow_lt_pow_right Nat.one_lt_two (by omega)
    exact iff_of_false (hlt.trans_le (Nat.le_mul_of_pos_right _ hpos)).not_ge (by omega)

/-- The quotient first reaches `2^m` after `clog2(D) + m + 1` iterations. -/
theorem two_pow_le_numerator_div_iff {d : Nat} (hpos : 0 < d) (m k : Nat) :
    2 ^ m ≤ numerator k / d ↔ Nat.clog 2 d + m + 1 ≤ k := by
  rw [Nat.le_div_iff_mul_le hpos]
  cases k with
  | zero => exact iff_of_false (Nat.mul_pos (Nat.two_pow_pos m) hpos).not_ge (by omega)
  | succ k => exact (two_pow_mul_le_two_pow_iff hpos m k).trans Nat.succ_le_succ_iff.symm

/-- A 16-bit divisor has `clog2(D)` at most 16. -/
theorem clog_le_sixteen {d : Nat} (hd : d ≤ 2 ^ 16) : Nat.clog 2 d ≤ 16 := Nat.clog_le_of_le_pow hd

/-- Up to iteration `clog2(D) + 12` the quotient register has lost no bit. -/
theorem LoopInv.quotient_exact {d : BitVec 17} {k : Nat} {r : InvRegs} (h : LoopInv d k r) (hpos : 1 ≤ d.toNat)
    (hk : k ≤ Nat.clog 2 d.toNat + 12) : r.q.toNat = numerator k / d.toNat := by
  have hfits : ¬ 2 ^ 12 ≤ numerator k / d.toNat := by
    rw [two_pow_le_numerator_div_iff hpos]
    omega
  rw [h.quotient_eq, Nat.mod_eq_of_lt (Nat.lt_of_not_le hfits)]

/-- Up to iteration `clog2(D) + 12`, that one is the first to pass the test for termination; the bound of 32
iterations is not reached. -/
theorem LoopInv.divDone_iff {d : BitVec 17} {k : Nat} {r : InvRegs} (h : LoopInv d k r) (hpos : 1 ≤ d.toNat)
    (hd : d.toNat ≤ 2 ^ 16) (hk : k ≤ Nat.clog 2 d.toNat + 12) :
    divDone r = true ↔ k = Nat.clog 2 d.toNat + 12 := by
  have hmsb : r.q.msb = true ↔ Nat.clog 2 d.toNat + 11 + 1 ≤ k := by
    rw [BitVec.msb_eq_true_iff_two_mul_ge, h.quotient_exact hpos hk, ← two_pow_le_numerator_div_iff hpos]
    omega
  have hbound : r.n ≠ BitVec.ofNat 6 Config.nmax := fun hn => by
    have hcount : k = 32 := h.count_eq.symm.trans (congrArg BitVec.toNat hn)
    have := clog_le_sixteen hd
    omega
  rw [divDone, Bool.or_eq_true, hmsb, beq_iff_eq, or_iff_left hbound]
  omega

/-- The loop returns after the first iteration that passes the test for termination. -/
theorem divLoop_eq_iterate {k n : Nat} {r : InvRegs} (hn : n < k)
    (hgo : ∀ j < n, divDone (divIter^[j + 1] r) = false) (hstop : divDone (divIter^[n + 1] r) = true) :
    divLoop k r = divIter^[n + 1] r := by
  induction n generalizing k r with
  | zero =>
    obtain ⟨k, rfl⟩ := Nat.exists_eq_add_of_lt hn
    exact if_pos hstop
  | succ n ih =>
    obtain ⟨k, rfl⟩ := Nat.exists_eq_succ_of_ne_zero (by omega : k ≠ 0)
    have hfirst : divDone (divIter r) = false := hgo 0 (by omega)
    calc divLoop (k + 1) r
        = divLoop k (divIter r) := if_neg (ne_true_of_eq_false hfirst)
      _ = divIter^[n + 1] (divIter r) := ih (by omega) (fun j hj => hgo (j + 1) (by omega)) hstop

/-- The division runs `clog2(D) + 12` iterations. -/
theorem restoringDivide_eq_iterate {d : BitVec 17} (hpos : 1 ≤ d.toNat) (hd : d.toNat ≤ 2 ^ 16) :
    restoringDivide d = divIter^[Nat.clog 2 d.toNat + 12] (divStart d) := by
  have hL := clog_le_sixteen hd
  have hdone {k : Nat} (hk : k ≤ Nat.clog 2 d.toNat + 12) :=
    (loopInv_iterate hpos hd (by omega : k ≤ 63)).divDone_iff hpos hd hk
  refine divLoop_eq_iterate (show _ < 32 by omega) (fun j hj => ?_) ((hdone le_rfl).2 rfl)
  refine Bool.eq_false_iff.2 fun hstop => ?_
  have := (hdone (by omega)).1 hstop
  omega

/-- The registers when the division returns meet the loop invariant at `clog2(D) + 12`. -/
theorem loopInv_restoringDivide {d : BitVec 17} (hpos : 1 ≤ d.toNat) (hd : d.toNat ≤ 2 ^ 16) :
    LoopInv d (Nat.clog 2 d.toNat + 12) (restoringDivide d) := by
  have hL := clog_le_sixteen hd
  rw [restoringDivide_eq_iterate hpos hd]
  exact loopInv_iterate hpos hd (by omega)

/-- Settles O19: the loop invariant at the iteration that stops the loop, where the quotient has just reached
`2^11`. -/
theorem restoringDivisionTerminates : Obligations.RestoringDivisionTerminates := by
  rintro d r L hpos hmax rfl rfl
  have hd : d.toNat ≤ 2 ^ 16 := hmax.trans (by decide)
  have hinv := loopInv_restoringDivide hpos hd
  have hcount := hinv.count_eq
  have hquot := hinv.quotient_exact hpos le_rfl
  have hL := clog_le_sixteen hd
  refine ⟨hcount, hquot, ?_, Nat.le_pred_of_lt (restoringDivide d).q.isLt, hinv.rem_eq, hL, by omega, fun h17 => ?_⟩
  · rw [hquot, two_pow_le_numerator_div_iff hpos]
  · have hL5 : 4 < Nat.clog 2 d.toNat := (Nat.lt_clog_iff_pow_lt Nat.one_lt_two).2 h17
    omega

end Sys2Proof.Proofs
end

section
/-! PROOF. The capture unit (42_capture.md R161 to R182): what each command answers, the sample and the next
prescaler of a completed CGET in numbers, and the steps of the sequencer, the comparator and the timer. -/

namespace Sys2Proof.Proofs

open Sys2Proof.Machine Sys2Proof.Laws

/-! ## What the commands do -/

theorem exec_cstart_zero (s : State) : exec (.cstart 0) s = .next (answerIllegal s) := rfl

theorem exec_cstart_of_ne {p : Nibble} (hp : p ≠ 0) (s : State) :
    exec (.cstart p) s = .next (respond .ok 0 (startCapture p s)) := if_neg hp

theorem exec_cget (s : State) :
    exec .cget s = .next { startCapture s.cap.presc s with cap.gpUsed := s.cap.presc, cap.gpend := true } := rfl

theorem exec_cstat (s : State) : exec .cstat s = .next (respond .ok (statusWord s.cap) s) := rfl

/-- Settles O25: the level of the sense output and the edge follow from each value of the mode bit. -/
theorem cresetPrecharges : Obligations.CresetPrecharges := by
  intro mode s
  cases mode with
  | false => rfl
  | true => rfl

/-- Settles O26: the prescaler is zero or it is the divider of the capture that begins. -/
theorem cstartBeginsACapture : Obligations.CstartBeginsACapture := by
  refine fun p s => ⟨fun hp => ?zero, fun hp => ?begins⟩
  case zero =>
    obtain rfl : p = 0 := BitVec.eq_of_toNat_eq hp
    exact exec_cstart_zero s
  case begins => exact exec_cstart_of_ne (BitVec.toNat_ne_iff_ne.1 hp) s

/-- Settles O27: the start with `PRESC`, and the two writes of the issue step. -/
theorem cgetIssueStartsWithThePrescaler : Obligations.CgetIssueStartsWithThePrescaler := exec_cget

/-! ## The status word (R173) -/

/-- Concatenation in numbers. -/
theorem append_toNat {m n : Nat} (x : BitVec m) (y : BitVec n) : (x ++ y).toNat = x.toNat * 2 ^ n + y.toNat := by
  rw [BitVec.toNat_append, ← Nat.shiftLeft_add_eq_or_of_lt y.isLt, Nat.shiftLeft_eq]

/-- The status word in numbers: bit 3 is zero, every other field stands at its place. -/
theorem statusWord_toNat (c : CaptureRegs) :
    (statusWord c).toNat
      = c.cstate.code.toNat + c.presc.toNat * 2 ^ 4 + c.raw.toNat * 2 ^ 8 + c.tdiv.toNat * 2 ^ 16
        + c.cie.toNat * 2 ^ 20 + c.mode.toNat * 2 ^ 21 + c.senseOe.toNat * 2 ^ 22 + c.senseLvl.toNat * 2 ^ 23
        + c.tcnt.toNat * 2 ^ 24 := by
  simp only [statusWord, append_toNat, BitVec.toNat_ofBool, BitVec.ofNat_eq_ofNat, BitVec.toNat_zero]
  ring

/-- Settles O29: the status word in numbers, with the code of each capture state. -/
theorem cstatAnswersTheStatusWord : Obligations.CstatAnswersTheStatusWord := by
  refine fun s => ⟨_, exec_cstat s, ?_⟩
  rw [statusWord_toNat]
  cases s.cap.cstate <;> rfl

/-! ## The sample and the next prescaler (R171, R172) -/

theorem sampleOf_of_overflow {c : CaptureRegs} (hov : c.cstate = .completeOverflow) :
    sampleOf c = Config.sampleOvf := if_pos hov

/-- The sample packs the raw count over `P - 1`. -/
theorem sampleOf_toNat {c : CaptureRegs} (hov : c.cstate ≠ .completeOverflow) (hP : 1 ≤ c.gpUsed.toNat) :
    (sampleOf c).toNat = c.raw.toNat * 256 + (c.gpUsed.toNat - 1) := by
  have hraw : (c.raw.setWidth 16 <<< 8).toNat = c.raw.toNat * 256 := by
    have := c.raw.isLt
    rw [BitVec.toNat_shiftLeft, BitVec.toNat_setWidth, Nat.shiftLeft_eq]
    omega
  have hused : (c.gpUsed - 1).toNat = c.gpUsed.toNat - 1 := BitVec.toNat_sub_of_le hP
  rw [sampleOf, if_neg hov, pack_toNat, hraw, hused]
  omega

/-- After an overflow the prescaler moves one step up, to 15 at most. -/
theorem autoRange_toNat_of_overflow {uthr : Byte} {c : CaptureRegs} (hov : c.cstate = .completeOverflow) :
    (autoRange uthr c).toNat = min (c.gpUsed.toNat + 1) 15 := by
  rw [autoRange, if_pos hov]
  split
  · next h15 => rw [h15]; rfl
  · next h15 => bv_omega

/-- Below the threshold the prescaler moves one step down, to 1 at least. -/
theorem autoRange_toNat_of_underflow {uthr : Byte} {c : CaptureRegs} (hov : c.cstate ≠ .completeOverflow)
    (hraw : c.raw.toNat < uthr.toNat) : (autoRange uthr c).toNat = max (c.gpUsed.toNat - 1) 1 := by
  rw [autoRange, if_neg hov, if_pos (BitVec.lt_def.2 hraw)]
  split
  · next hle => bv_omega
  · next hgt => bv_omega

/-- From the threshold on the prescaler stays. -/
theorem autoRange_of_inRange {uthr : Byte} {c : CaptureRegs} (hov : c.cstate ≠ .completeOverflow)
    (hraw : uthr.toNat ≤ c.raw.toNat) : autoRange uthr c = c.presc := by
  rw [autoRange, if_neg hov, if_neg (by rw [BitVec.lt_def]; omega)]

/-! ## The sequencer's turn -/

theorem step_sequencer {s t : State} {rest : List Move} (hm : s.moves = .sequencer :: rest)
    (ht : sequencerTurn { s with moves := rest } = t) : step s = .next t := by
  rw [step_cons hm, takeMove, ht]

theorem sequencerTurn_of_enabled {s : State} (hg : s.cap.gpend = true) (hs : s.cap.cstate ≠ .sampling)
    (hrst : s.rst = false) : sequencerTurn s = completeCget s := by
  simpa [hg, hs, hrst] using sequencerTurn_cases s

theorem sequencerTurn_of_disabled {s : State} (h : s.cap.gpend = false ∨ s.cap.cstate = .sampling) :
    sequencerTurn s = s := by
  obtain ⟨hg, hs, -⟩ | ⟨-, hkeeps⟩ := sequencerTurn_cases s
  · simp [hg, hs] at h
  · exact hkeeps

/-- Settles O28: where it is enabled the turn is the completion step, whose sample and prescaler are those of the
lemmas above; where it is not, the turn leaves the state. -/
theorem cgetCompletionAnswersTheSample : Obligations.CgetCompletionAnswersTheSample := by
  refine fun s rest hm hrst => ⟨fun hg hs hP => ?enabled, fun h => ?disabled⟩
  case enabled =>
    refine ⟨zext32 (sampleOf s.cap), autoRange s.params.uthr s.cap,
      step_sequencer hm (sequencerTurn_of_enabled hg hs hrst), fun hov => ?overflow, fun hov => ?sample⟩
    case overflow =>
      exact ⟨by rw [zext32_toNat, sampleOf_of_overflow hov]; rfl, autoRange_toNat_of_overflow hov⟩
    case sample =>
      exact ⟨(zext32_toNat _).trans (sampleOf_toNat hov hP), autoRange_toNat_of_underflow hov,
        autoRange_of_inRange hov⟩
  case disabled => exact step_sequencer hm (sequencerTurn_of_disabled h)

/-- Settles O36: the completion step's sample has four zero bits in the middle, the sentinel has none. -/
theorem sampleIsNeverTheSentinel : Obligations.SampleIsNeverTheSentinel := by
  intro s t rest hm hrst hg hP hended hstep
  have hs : s.cap.cstate ≠ .sampling := by rcases hended with h | h <;> simp [h]
  obtain ⟨v, p, hanswer, hoverflow, hsample⟩ := (cgetCompletionAnswersTheSample s rest hm hrst).1 hg hs hP
  obtain rfl := Host.Outcome.next.inj (hstep.symm.trans hanswer)
  refine ⟨_, rfl, ?_⟩
  rcases hended with hcomplete | hov
  · have hne : s.cap.cstate ≠ .completeOverflow := by simp [hcomplete]
    have := s.cap.gpUsed.isLt
    obtain ⟨hv, -⟩ := hsample hne
    have hmiddle : v.toNat / 16 % 16 = 0 := by omega
    have hsentinel : v.toNat ≠ 0xFFFF := by omega
    exact ⟨fun _ => ⟨hv, hmiddle⟩, fun h => absurd h hsentinel, fun h => absurd h hne⟩
  · exact ⟨fun h => by simp [h] at hov, fun _ => hov, fun _ => (hoverflow hov).1⟩

/-! ## The events CMP and TICK -/

theorem step_cmp {s t : State} {rest : List Move} (hm : s.moves = .cmp :: rest) (hrst : s.rst = false)
    (ht : handleCmp { s with moves := rest } = t) : step s = .next t := by
  rw [step_cons hm, takeMove, unlessReset_of_running, ht]
  exact hrst

theorem step_tick {s t : State} {rest : List Move} (hm : s.moves = .tick :: rest) (hrst : s.rst = false)
    (ht : handleTick { s with moves := rest } = t) : step s = .next t := by
  rw [step_cons hm, takeMove, unlessReset_of_running, ht]
  exact hrst

theorem handleCmp_of_armed {s : State} (hcie : s.cap.cie = true) (hs : s.cap.cstate = .sampling) :
    handleCmp s = endCapture s.cap.tcnt .complete s := by
  simpa [hcie, hs] using handleCmp_cases s

theorem handleCmp_of_ignored {s : State} (h : s.cap.cie = false ∨ s.cap.cstate ≠ .sampling) : handleCmp s = s := by
  obtain ⟨hcie, hs, -⟩ | ⟨-, hkeeps⟩ := handleCmp_cases s
  · simp [hcie, hs] at h
  · exact hkeeps

theorem handleTick_of_stopped {s : State} (hd : s.cap.tdiv = 0) : handleTick s = s := by
  obtain ⟨-, h⟩ | ⟨h, -⟩ | ⟨h, -⟩ | ⟨h, -⟩ := handleTick_cases s
  exacts [h, absurd hd h, absurd hd h, absurd hd h]

theorem handleTick_of_counting {s : State} (hd : s.cap.tdiv ≠ 0) (hc : s.cap.tcnt ≠ 0xFF) :
    handleTick s = { s with cap.tcnt := s.cap.tcnt + 1 } := by
  obtain ⟨h, -⟩ | ⟨-, -, h⟩ | ⟨-, h, -⟩ | ⟨-, h, -⟩ := handleTick_cases s
  exacts [absurd h hd, h, absurd h hc, absurd h hc]

theorem handleTick_of_overflow {s : State} (hd : s.cap.tdiv ≠ 0) (hc : s.cap.tcnt = 0xFF)
    (hs : s.cap.cstate = .sampling) :
    handleTick s = endCapture 0xFF .completeOverflow { s with cap.tcnt := 0 } := by
  obtain ⟨h, -⟩ | ⟨-, h, -⟩ | ⟨-, -, -, h⟩ | ⟨-, -, h, -⟩ := handleTick_cases s
  exacts [absurd h hd, absurd hc h, h, absurd hs h]

theorem handleTick_of_wrap {s : State} (hd : s.cap.tdiv ≠ 0) (hc : s.cap.tcnt = 0xFF)
    (hs : s.cap.cstate ≠ .sampling) : handleTick s = { s with cap.tcnt := 0 } := by
  obtain ⟨h, -⟩ | ⟨-, h, -⟩ | ⟨-, -, h, -⟩ | ⟨-, -, -, h⟩ := handleTick_cases s
  exacts [absurd h hd, absurd hc h, absurd h hs, h]

/-- Settles O31: the edge latches the count where it is armed in Sampling, and is ignored elsewhere. -/
theorem comparatorEdgeLatchesTheCount : Obligations.ComparatorEdgeLatchesTheCount := fun _ _ hm hrst =>
  ⟨fun hcie hs => step_cmp hm hrst (handleCmp_of_armed hcie hs),
    fun h => step_cmp hm hrst (handleCmp_of_ignored h)⟩

/-- Settles O32: the four cases of the timer clock. -/
theorem timerClockCountsAndOverflows : Obligations.TimerClockCountsAndOverflows := by
  intro s rest hm hrst
  have hff : s.cap.tcnt.toNat = 0xFF ↔ s.cap.tcnt = 0xFF := BitVec.toNat_inj (y := 0xFF)
  have hzero : s.cap.tdiv.toNat = 0 ↔ s.cap.tdiv = 0 := BitVec.toNat_inj (y := 0)
  rw [ne_eq, ne_eq, hff, hzero]
  refine ⟨fun hd hc => ⟨_, step_tick hm hrst (handleTick_of_counting hd hc), ?counted⟩,
    fun hd hc hs => step_tick hm hrst (handleTick_of_overflow hd hc hs),
    fun hd hc hs => step_tick hm hrst (handleTick_of_wrap hd hc hs),
    fun hd => step_tick hm hrst (handleTick_of_stopped hd)⟩
  case counted => bv_omega

end Sys2Proof.Proofs
end

section
/-! PROOF. The storage writer (43_storage_writer.md R201, R202): what each of its two commands does, and the
statements of the family. -/

namespace Sys2Proof.Proofs

open Sys2Proof.Machine

/-! ## What the commands do -/

theorem exec_swrite_of_busy {s : State} (src dst : Half) (len : Byte) (hbusy : s.asw.busy = true) :
    exec (.swrite src dst len) s = .next (respond .busy 0 s) := if_pos hbusy

/-- An empty transfer is complete at once (D21). -/
theorem exec_swrite_zero {s : State} (src dst : Half) (hfree : s.asw.busy = false) :
    exec (.swrite src dst 0) s = .next (respond .ok 0 s) := by
  rw [exec, execSwrite, if_neg (ne_true_of_eq_false hfree), if_pos rfl]

theorem exec_swrite_of_ne {s : State} (src dst : Half) {len : Byte} (hfree : s.asw.busy = false) (hlen : len ≠ 0) :
    exec (.swrite src dst len) s
      = .next (respond .ok 0
        { s with asw := { src := src, dst := dst, len := len, rem := len, busy := true, rie := true } }) := by
  rw [exec, execSwrite, if_neg (ne_true_of_eq_false hfree), if_neg hlen]

theorem exec_sdone (s : State) : exec .sdone s = .next (respond .ok (if s.asw.busy then 0 else 1) s) := rfl

/-- Settles O42: a transfer is in flight, or the length is zero, or the descriptor is recorded. -/
theorem swriteRecordsTheDescriptor : Obligations.SwriteRecordsTheDescriptor := by
  refine fun src dst len s =>
    ⟨fun hbusy => ?inFlight, fun hfree hlen => ?empty, fun hfree hlen => ?records⟩
  case inFlight => exact exec_swrite_of_busy src dst len hbusy
  case empty =>
    obtain rfl : len = 0 := BitVec.eq_of_toNat_eq hlen
    exact exec_swrite_zero src dst hfree
  case records => exact exec_swrite_of_ne src dst hfree (BitVec.toNat_ne_iff_ne.1 hlen)

/-- Settles O43: the answer is the busy flag inverted. -/
theorem sdoneReadsTheBusyFlag : Obligations.SdoneReadsTheBusyFlag := by
  refine fun s => ⟨_, exec_sdone s, fun hfree => ?complete, fun hbusy => ?inFlight⟩
  case complete => rw [hfree]; rfl
  case inFlight => rw [hbusy]; rfl

end Sys2Proof.Proofs
end

section
/-! PROOF. Decode and encode agree (30_encoding.md R81 to R89): each operand is read back from its field of the packet,
and the statements about the words themselves. -/

namespace Sys2Proof.Proofs

open Sys2Proof.Machine Sys2Proof.Laws

/-! ## Each operand is read back from its field -/

/-- `b[3:0]` gives back an exponent or a prescaler. -/
@[simp] theorem lowNibble_setWidth (e : Nibble) : (e.setWidth 8).extractLsb' 0 4 = e := by
  have := e.isLt
  apply BitVec.eq_of_toNat_eq
  rw [lowNibble_toNat, BitVec.toNat_setWidth]
  omega

/-- `b[0]` gives back a mode. -/
@[simp] theorem bit0_ofBool (m : Bool) : ((BitVec.ofBool m).setWidth 8).getLsbD 0 = m := by
  cases m <;> decide

/-- `sext_8(b)` gives back a signed operand in its range (R88). -/
theorem toInt_ofInt_of_inSext8 {x : Int} (h : inSext8 x = true) : (BitVec.ofInt 8 x).toInt = x := by
  simp only [inSext8, Bool.and_eq_true, decide_eq_true_eq] at h
  exact BitVec.toInt_ofInt_eq_self (by decide) (by omega) (by omega)

/-- `c` gives back a destination offset. -/
@[simp] theorem cField_setWidth (dst : Half) : cField (dst.setWidth 32) = dst := by
  have := dst.isLt
  apply BitVec.eq_of_toNat_eq
  rw [cField, BitVec.extractLsb'_toNat, Nat.shiftRight_zero, BitVec.toNat_setWidth]
  omega

/-- The row of a command in the opcode map (R85). -/
def rowOf : Instr → Opcode
  | .compose _ _ => .compose
  | .exsig _ => .exsig
  | .exexp _ => .exexp
  | .norm _ _ => .norm
  | .inv _ _ => .inv
  | .toi16 _ => .toi16
  | .toi32 _ => .toi32
  | .creset _ => .creset
  | .cstart _ => .cstart
  | .cget => .cget
  | .cstat => .cstat
  | .swrite _ _ _ => .swrite
  | .sdone => .sdone

/-- What is decoded is a command of the row selected. -/
theorem rowOf_decodeOperands {o : Opcode} {w : Word32} {tail rest : List Word32} {i : Instr}
    (h : decodeOperands o w tail = .ok i rest) : rowOf i = o := by
  cases o
  case swrite =>
    cases tail with
    | nil => cases h
    | cons w1 tail => cases h; rfl
  all_goals cases h; rfl

/-- A well-formed command's row exists in the block. -/
theorem rowOf_exists {hasAsw : Bool} {i : Instr} (hwf : wellFormed hasAsw i = true) :
    (hasAsw || !(rowOf i).needsAsw) = true := by
  cases i
  case swrite | sdone => exact (Bool.or_false hasAsw).trans hwf
  all_goals exact Bool.or_true hasAsw

/-- The encoding starts with a word of the command's row, and the operands taken there are the command's. -/
theorem decodeOperands_encode {hasAsw : Bool} {i : Instr} (hwf : wellFormed hasAsw i = true) :
    ∃ (b : Byte) (a : Half) (tail : List Word32), encode i = packC32 (rowOf i) b a :: tail
      ∧ ∀ rest, decodeOperands (rowOf i) (packC32 (rowOf i) b a) (tail ++ rest) = .ok i rest := by
  cases i
  case norm | inv =>
    exact ⟨_, _, _, rfl, fun rest => by simp [decodeOperands, rowOf, toInt_ofInt_of_inSext8 hwf]⟩
  all_goals exact ⟨_, _, _, rfl, fun rest => by simp [decodeOperands, rowOf]⟩

/-- Settles O2: the first word selects the command's row, whose fields give the operands back. -/
theorem decodeOfEncodeIsTheCommand : Obligations.DecodeOfEncodeIsTheCommand := by
  intro hasAsw i rest hwf
  obtain ⟨b, a, tail, hwords, hops⟩ := decodeOperands_encode hwf
  calc decode hasAsw (encode i ++ rest)
      = decode hasAsw (packC32 (rowOf i) b a :: (tail ++ rest)) := by rw [hwords, List.cons_append]
    _ = decodeOperands (rowOf i) (packC32 (rowOf i) b a) (tail ++ rest) :=
        decode_some _ ((opField_packC32 (rowOf i) b a).symm ▸ ofCode_code hasAsw (rowOf i) (rowOf_exists hwf))
    _ = .ok i rest := hops rest

/-- Settles O1: the ten words of the table, each decoded. -/
theorem specWordsDecode : Obligations.SpecWordsDecode := by
  unfold Obligations.SpecWordsDecode
  decide

end Sys2Proof.Proofs
end

section
/-! PROOF. What a command, a move and a step can do to the state, said once as two relations: each invariant and frame
below is a case split on them. -/

namespace Sys2Proof.Proofs

open Sys2Proof.Machine Sys2Proof.Laws

/-! ## What a command can do -/

/-- What command `i`, issued in state `s`, can make of it. -/
inductive CommandEffect (s : State) : Instr → State → Prop
  /-- The answer OK and nothing else. -/
  | answers (i : Instr) (v : Word32) : CommandEffect s i (respond .ok v s)
  /-- INV leaves values in the working registers. -/
  | divides (f : Half) (x : Int) (v : Word32) (r : InvRegs) :
    CommandEffect s (.inv f x) (respond .ok v { s with inv := r })
  /-- The answer BUSY or ILLEGAL with word zero, and nothing else. -/
  | declines (i : Instr) {st : Status} (hst : st ≠ .ok) : CommandEffect s i (respond st 0 s)
  /-- CRESET (42_capture.md R161). -/
  | precharges (mode : Bool) :
    CommandEffect s (.creset mode)
      (respond .ok 0
        { s with
          cap.mode := mode, cap.senseOe := true, cap.senseLvl := !mode
          cap.edge := if mode then .rising else .falling
          cap.tcnt := 0, cap.tdiv := 0, cap.cie := false, cap.cstate := .ready })
  /-- CSTART begins a capture (R162). -/
  | starts {p : Nibble} (hp : p ≠ 0) : CommandEffect s (.cstart p) (respond .ok 0 (startCapture p s))
  /-- The issue step of CGET (R170). -/
  | issues :
    CommandEffect s .cget { startCapture s.cap.presc s with cap.gpUsed := s.cap.presc, cap.gpend := true }
  /-- SWRITE records a descriptor (43_storage_writer.md R201). -/
  | records (src dst : Half) {len : Byte} (hfree : s.asw.busy = false) (hlen : len ≠ 0) :
    CommandEffect s (.swrite src dst len)
      (respond .ok 0
        { s with asw := { src := src, dst := dst, len := len, rem := len, busy := true, rie := true } })

theorem exec_creset (mode : Bool) (s : State) :
    exec (.creset mode) s
      = .next (respond .ok 0
        { s with
          cap.mode := mode, cap.senseOe := true, cap.senseLvl := !mode
          cap.edge := if mode then .rising else .falling
          cap.tcnt := 0, cap.tdiv := 0, cap.cie := false, cap.cstate := .ready }) := rfl

theorem exec_toi16 (w : Half) (s : State) :
    exec (.toi16 w) s = .next (respond .ok (zext32 ((shiftedSig w).setWidth 16)) s) := rfl

theorem exec_toi32 (w : Half) (s : State) : exec (.toi32 w) s = .next (respond .ok (shiftedSig w) s) := rfl

theorem exec_inv_of_zero {f : Half} (hf : sig f = 0) (x : Int) (s : State) :
    exec (.inv f x) s = .next (respond .ok (zext32 Config.fpMax) s) := if_pos hf

theorem exec_inv_of_ne {f : Half} (hf : sig f ≠ 0) (x : Int) (s : State) :
    exec (.inv f x) s
      = .next (respond .ok (zext32 (invResult f x (restoringDivide (divisor f))))
        { s with inv := restoringDivide (divisor f) }) := if_neg hf

/-- Every command ends in a next state, which is one of its effects. -/
theorem exec_effect (i : Instr) (s : State) : ∃ t, exec i s = .next t ∧ CommandEffect s i t := by
  cases i with
  | compose sg e => exact ⟨_, exec_compose sg e s, .answers _ _⟩
  | exsig w => exact ⟨_, exec_exsig w s, .answers _ _⟩
  | exexp w => exact ⟨_, exec_exexp w s, .answers _ _⟩
  | norm sg e => exact ⟨_, exec_norm sg e s, .answers _ _⟩
  | inv f x =>
    by_cases hf : sig f = 0
    · exact ⟨_, exec_inv_of_zero hf x s, .answers _ _⟩
    · exact ⟨_, exec_inv_of_ne hf x s, .divides _ _ _ _⟩
  | toi16 w => exact ⟨_, exec_toi16 w s, .answers _ _⟩
  | toi32 w => exact ⟨_, exec_toi32 w s, .answers _ _⟩
  | creset mode => exact ⟨_, exec_creset mode s, .precharges mode⟩
  | cstart p =>
    by_cases hp : p = 0
    · exact ⟨_, hp ▸ exec_cstart_zero s, .declines _ (by decide)⟩
    · exact ⟨_, exec_cstart_of_ne hp s, .starts hp⟩
  | cget => exact ⟨_, exec_cget s, .issues⟩
  | cstat => exact ⟨_, exec_cstat s, .answers _ _⟩
  | swrite src dst len =>
    cases hbusy : s.asw.busy with
    | true => exact ⟨_, exec_swrite_of_busy src dst len hbusy, .declines _ (by decide)⟩
    | false =>
      by_cases hlen : len = 0
      · exact ⟨_, hlen ▸ exec_swrite_zero src dst hbusy, .answers _ _⟩
      · exact ⟨_, exec_swrite_of_ne src dst hbusy hlen, .records src dst hbusy hlen⟩
  | sdone => exact ⟨_, exec_sdone s, .answers _ _⟩

theorem exec_next_effect {i : Instr} {s t : State} (h : exec i s = .next t) : CommandEffect s i t := by
  obtain ⟨u, hu, heff⟩ := exec_effect i s
  obtain rfl := Host.Outcome.next.inj (h.symm.trans hu)
  exact heff

/-! ## What a move can do -/

/-- What the agent of move `m`, in state `s` with the move taken from the schedule, can make of it. -/
inductive Effect (s : State) : Move → State → Prop
  /-- Nothing; of a timer clock only where the timer is stopped (60_exceptions.md R233), or in reset. -/
  | keeps {m : Move} (hstopped : m = .tick → s.rst = false → s.cap.tdiv = 0) : Effect s m s
  /-- The port holds word 0 of a two-word command (30_encoding.md R82). -/
  | holds {w : Word32} (hopen : cmdReady s = true) (hheld : s.held = none)
    (hlen : commandLength s.params.hasAsw w = 2) : Effect s (.word w) { s with held := some w }
  /-- An undefined opcode (R87). -/
  | rejects (w : Word32) (hopen : cmdReady s = true) : Effect s (.word w) (answerIllegal { s with held := none })
  /-- The words complete a command, which takes effect (R80 to R83). -/
  | runs {w : Word32} {i : Instr} {rest : List Word32} {t : State} (hopen : cmdReady s = true)
    (hdecode : decode s.params.hasAsw (s.held.toList ++ [w]) = .ok i rest)
    (heffect : CommandEffect { s with held := none } i t) : Effect s (.word w) t
  /-- The completion step of CGET (42_capture.md R171). -/
  | completes (hpend : s.cap.gpend = true) (hended : s.cap.cstate ≠ .sampling) (hrst : s.rst = false) :
    Effect s .sequencer (completeCget s)
  /-- An armed comparator edge (R176). -/
  | latches (hrst : s.rst = false) (harmed : s.cap.cie = true) (hs : s.cap.cstate = .sampling) :
    Effect s .cmp (endCapture s.cap.tcnt .complete s)
  /-- A timer clock below 0xFF (R178). -/
  | counts (hrst : s.rst = false) (hruns : s.cap.tdiv ≠ 0) (hc : s.cap.tcnt ≠ 0xFF) :
    Effect s .tick { s with cap.tcnt := s.cap.tcnt + 1 }
  /-- A timer clock at 0xFF in Sampling (R179). -/
  | overflows (hrst : s.rst = false) (hruns : s.cap.tdiv ≠ 0) (hc : s.cap.tcnt = 0xFF)
    (hs : s.cap.cstate = .sampling) :
    Effect s .tick (endCapture 0xFF .completeOverflow { s with cap.tcnt := 0 })
  /-- A timer clock at 0xFF in another state (R179). -/
  | wraps (hrst : s.rst = false) (hruns : s.cap.tdiv ≠ 0) (hs : s.cap.cstate ≠ .sampling) :
    Effect s .tick { s with cap.tcnt := 0 }
  /-- An enabled ready pulse (43_storage_writer.md R206). -/
  | copies (hrst : s.rst = false) (hasw : s.params.hasAsw = true) (hrie : s.asw.rie = true) :
    Effect s .srdy (handleSrdy s)
  | puts (a : Half) (b : Byte) : Effect s (.sourcePut a b) (sourcePut a b s)
  | asserts : Effect s .assertReset (hardwareReset true s)
  | releases (hrst : s.rst = true) : Effect s .releaseReset (hardwareReset false s)

/-- A command needs one word or two: what the port has when it runs a command is never incomplete. -/
theorem decode_complete {hasAsw : Bool} {held : Option Word32} {w : Word32}
    (hlen : held = none → commandLength hasAsw w ≠ 2) :
    decode hasAsw (held.toList ++ [w]) ≠ .refused .incomplete := by
  cases held with
  | none => exact decode_single_of_length (hlen rfl)
  | some w0 =>
    intro h
    cases ho : Opcode.ofCode hasAsw (opField w0) with
    | none => exact absurd ((decode_none _ ho).symm.trans h) (by simp)
    | some o => exact absurd (decodeOperands_incomplete ((decode_some _ ho).symm.trans h)).2 (by simp)

/-- The open port holds a first word of two, or runs what it holds with the word. -/
theorem acceptWord_of_ready {s : State} (hopen : cmdReady s = true) (w : Word32) :
    acceptWord w s
      = if s.held = none ∧ commandLength s.params.hasAsw w = 2 then .next { s with held := some w }
        else runCommand (s.held.toList ++ [w]) { s with held := none } := by
  obtain ⟨params, inv, cap, asw, srcMem, nvm, nvmLog, held, rst, responses, moves, draws⟩ := s
  cases held <;> simp [acceptWord, hopen]

theorem acceptWord_effect {w : Word32} {s t : State} (h : acceptWord w s = .next t) : Effect s (.word w) t := by
  obtain ⟨hopen, -⟩ := acceptWord_cases h
  rw [acceptWord_of_ready hopen] at h
  split at h
  · next hfirst => cases h; exact .holds hopen hfirst.1 hfirst.2
  · next hlast =>
    obtain ⟨i, rest, hdecode, hexec⟩ | ⟨op, -, rfl⟩ | ⟨hinc, -⟩ := runCommand_cases h
    · exact .runs hopen hdecode (exec_next_effect hexec)
    · exact .rejects w hopen
    · exact absurd hinc (decode_complete fun hheld hlen => hlast ⟨hheld, hlen⟩)

theorem sequencerTurn_effect (s : State) : Effect s .sequencer (sequencerTurn s) := by
  obtain ⟨hpend, hended, hrst, e⟩ | ⟨-, e⟩ := sequencerTurn_cases s <;> rw [e]
  · exact .completes hpend hended hrst
  · exact .keeps nofun

theorem handleCmp_effect {s : State} (hrst : s.rst = false) : Effect s .cmp (handleCmp s) := by
  obtain ⟨harmed, hs, e⟩ | ⟨-, e⟩ := handleCmp_cases s <;> rw [e]
  · exact .latches hrst harmed hs
  · exact .keeps nofun

theorem handleTick_effect {s : State} (hrst : s.rst = false) : Effect s .tick (handleTick s) := by
  obtain ⟨hd, e⟩ | ⟨hruns, hc, e⟩ | ⟨hruns, hc, hs, e⟩ | ⟨hruns, hc, hs, e⟩ := handleTick_cases s <;> rw [e]
  · exact .keeps fun _ _ => hd
  · exact .counts hrst hruns hc
  · exact .overflows hrst hruns hc hs
  · exact .wraps hrst hruns hs

theorem handleSrdy_effect {s : State} (hrst : s.rst = false) : Effect s .srdy (handleSrdy s) := by
  obtain ⟨-, e⟩ | ⟨hasw, hrie, -⟩ := handleSrdy_cases s
  · rw [e]; exact .keeps nofun
  · exact .copies hrst hasw hrie

/-- An event's effect is kept from happening while `rst` is asserted. -/
theorem unlessReset_effect {f : State → State} {m : Move} {s : State}
    (hf : s.rst = false → Effect s m (f s)) : Effect s m (unlessReset f s) := by
  cases hrst : s.rst with
  | true => rw [unlessReset_of_reset hrst]; exact .keeps fun _ hrun => absurd (hrst.symm.trans hrun) (by decide)
  | false => rw [unlessReset_of_running hrst]; exact hf hrst

theorem takeMove_effect {m : Move} {s t : State} (h : takeMove m s = .next t) : Effect s m t := by
  cases m with
  | word w => exact acceptWord_effect h
  | sequencer => cases h; exact sequencerTurn_effect s
  | cmp => cases h; exact unlessReset_effect handleCmp_effect
  | tick => cases h; exact unlessReset_effect handleTick_effect
  | srdy => cases h; exact unlessReset_effect handleSrdy_effect
  | sourcePut a b => cases h; exact .puts a b
  | assertReset => cases h; exact .asserts
  | releaseReset =>
    cases h
    split
    · next hrst => exact .releases hrst
    · exact .keeps nofun

/-! ## What a step can do -/

/-- The state with the first move taken from the schedule. -/
def popMove (s : State) : State := { s with moves := s.moves.tail }

/-- The move of a step: the first one listed, or else the sequencer's turn (log 6). -/
def nextMove (s : State) : Move := s.moves.head?.getD .sequencer

theorem nextMove_of_cons {s : State} {m : Move} {rest : List Move} (h : s.moves = m :: rest) :
    nextMove s = m := by rw [nextMove, h]; rfl

theorem step_eq_takeMove (s : State) : step s = takeMove (nextMove s) (popMove s) := by
  obtain ⟨params, inv, cap, asw, srcMem, nvm, nvmLog, held, rst, responses, moves, draws⟩ := s
  cases moves with
  | nil => exact step_nil rfl
  | cons m rest => exact step_cons rfl

/-- A step is an effect of its move. -/
theorem step_effect {s t : State} (h : step s = .next t) : Effect (popMove s) (nextMove s) t :=
  takeMove_effect ((step_eq_takeMove s).symm.trans h)

end Sys2Proof.Proofs
end

section
/-! PROOF. What every step does (10_state.md R34, 30_encoding.md R80 to R84, R92, 60_exceptions.md R230): which step
completes, what no command and no step writes, the responses, and the words at the command port. -/

namespace Sys2Proof.Proofs

open Sys2Proof.Machine Sys2Proof.Safety Sys2Proof.Laws

/-! ## What no command and no step writes -/

theorem CommandEffect.rst_eq {s t : State} {i : Instr} (h : CommandEffect s i t) : t.rst = s.rst := by
  cases h <;> rfl

theorem CommandEffect.params_eq {s t : State} {i : Instr} (h : CommandEffect s i t) : t.params = s.params := by
  cases h <;> rfl

theorem CommandEffect.moves_eq {s t : State} {i : Instr} (h : CommandEffect s i t) : t.moves = s.moves := by
  cases h <;> rfl

theorem CommandEffect.held_eq {s t : State} {i : Instr} (h : CommandEffect s i t) : t.held = s.held := by
  cases h <;> rfl

theorem CommandEffect.spaces_eq {s t : State} {i : Instr} (h : CommandEffect s i t) :
    t.srcMem = s.srcMem ∧ t.nvm = s.nvm ∧ t.nvmLog = s.nvmLog := by
  cases h <;> exact ⟨rfl, rfl, rfl⟩

/-- A ready pulse writes the storage writer, the non-volatile space and its record. -/
theorem handleSrdy_frame (s : State) :
    handleSrdy s
      = { s with asw := (handleSrdy s).asw, nvm := (handleSrdy s).nvm, nvmLog := (handleSrdy s).nvmLog } := by
  obtain ⟨-, e⟩ | ⟨-, -, ⟨-, e⟩ | ⟨-, e⟩⟩ := handleSrdy_cases s <;> rw [e] <;> rfl

theorem Effect.params_eq {s t : State} {m : Move} (h : Effect s m t) : t.params = s.params := by
  cases h with
  | runs _ _ heffect => exact heffect.params_eq
  | copies => rw [handleSrdy_frame]
  | _ => rfl

theorem Effect.moves_eq {s t : State} {m : Move} (h : Effect s m t) : t.moves = s.moves := by
  cases h with
  | runs _ _ heffect => exact heffect.moves_eq
  | copies => rw [handleSrdy_frame]
  | _ => rfl

/-- A step takes the first move of the schedule. -/
theorem step_moves {s t : State} (h : step s = .next t) : t.moves = s.moves.tail := (step_effect h).moves_eq

/-- Settles O55: no effect writes the parameters. -/
theorem noStepChangesTheParameters : Obligations.NoStepChangesTheParameters := fun _ _ h =>
  (step_effect h).params_eq

/-! ## Every command and every step completes (R230) -/

theorem runCommand_completes (ws : List Word32) (s : State) : ∃ t, runCommand ws s = .next t := by
  unfold runCommand
  split
  · next i rest _ => obtain ⟨t, ht, -⟩ := exec_effect i s; exact ⟨t, ht⟩
  · exact ⟨_, rfl⟩
  · exact ⟨_, rfl⟩

theorem acceptWord_completes {s : State} (hopen : cmdReady s = true) (w : Word32) :
    ∃ t, acceptWord w s = .next t := by
  rw [acceptWord_of_ready hopen]
  split
  · exact ⟨_, rfl⟩
  · exact runCommand_completes _ _

theorem acceptWord_of_closed {s : State} (hclosed : cmdReady s = false) (w : Word32) :
    acceptWord w s = .refused .commandWhileNotReady := if_neg (ne_true_of_eq_false hclosed)

/-- A move that is no command word has a next state. -/
theorem takeMove_completes {m : Move} (hm : ∀ w, m ≠ .word w) (s : State) : ∃ t, takeMove m s = .next t := by
  cases m with
  | word w => exact absurd rfl (hm w)
  | _ => exact ⟨_, rfl⟩

/-- A step whose move is no command word completes. -/
theorem step_completes {s : State} (hm : ∀ w, nextMove s ≠ .word w) : ∃ t, step s = .next t := by
  rw [step_eq_takeMove]
  exact takeMove_completes hm _

/-- Settles O11: every command has an effect, and of the moves only a word may be turned away, at a closed port. -/
theorem everyCommandAndEveryStepCompletes : Obligations.EveryCommandAndEveryStepCompletes := by
  refine ⟨fun i s => ?_, fun s => ?_⟩
  · obtain ⟨t, ht, -⟩ := exec_effect i s
    exact ⟨t, ht⟩
  · cases hmoves : s.moves with
    | nil => exact .inl ⟨_, step_nil hmoves⟩
    | cons m rest =>
      rw [step_cons hmoves]
      cases m with
      | word w =>
        cases hready : cmdReady s with
        | true => exact .inl (acceptWord_completes (s := { s with moves := rest }) hready w)
        | false =>
          exact .inr ⟨acceptWord_of_closed (s := { s with moves := rest }) hready w, rfl, w, rest, rfl⟩
      | _ => exact .inl ⟨_, rfl⟩

/-! ## The responses (R84) -/

/-- Status code 3 is never produced. -/
theorem status_code_ne_three (st : Status) : st.code ≠ 3 := by cases st <;> decide

/-- A command gives one response, or none (CGET); one that is not OK carries zero and comes alone. -/
theorem CommandEffect.responses_cases {s t : State} {i : Instr} (h : CommandEffect s i t) :
    t.responses = s.responses
      ∨ (∃ v, t.responses = { status := .ok, value := v } :: s.responses)
      ∨ ∃ st, st ≠ .ok ∧ t = respond st 0 s := by
  cases h with
  | issues => exact .inl rfl
  | declines _ hst => exact .inr (.inr ⟨_, hst, rfl⟩)
  | _ => exact .inr (.inl ⟨_, rfl⟩)

/-- A move gives one response or none; one that is not OK carries zero and comes with nothing but the word taken. -/
theorem Effect.responses_cases {s t : State} {m : Move} (h : Effect s m t) :
    t.responses = s.responses
      ∨ (∃ v, t.responses = { status := .ok, value := v } :: s.responses)
      ∨ ∃ st, st ≠ .ok ∧ t = respond st 0 { s with held := none } := by
  cases h with
  | rejects => exact .inr (.inr ⟨.illegal, by decide, rfl⟩)
  | runs _ _ heffect => exact heffect.responses_cases
  | completes => exact .inr (.inl ⟨_, rfl⟩)
  | copies => rw [handleSrdy_frame]; exact .inl rfl
  | _ => exact .inl rfl

/-- Settles O10: a step's response is its move's. -/
theorem oneResponseAndNoEffectWithoutOk : Obligations.OneResponseAndNoEffectWithoutOk := by
  intro s t h
  obtain hnone | ⟨v, hok⟩ | ⟨st, hst, rfl⟩ := (step_effect h).responses_cases
  · exact .inl hnone
  · exact .inr ⟨_, hok, status_code_ne_three _, fun hne => absurd rfl hne⟩
  · exact .inr ⟨_, rfl, status_code_ne_three _, fun _ => ⟨rfl, rfl⟩⟩

/-! ## Words at the command port -/

/-- Settles O7: the open port runs what it holds with the word, and the words decode to the command. -/
theorem stepRunsTheDecodedCommand : Obligations.StepRunsTheDecodedCommand := by
  refine ⟨fun s w rest i tail hpend hrst hheld hmoves hdecode => ?one,
    fun s w0 w1 rest i tail hpend hrst hheld hmoves hdecode => ?two⟩
  case one =>
    have hopen : cmdReady { s with moves := rest } = true := (cmdReady_iff _).2 ⟨hpend, hrst⟩
    have hlen : commandLength s.params.hasAsw w ≠ 2 := fun hlen => by
      obtain ⟨o, ho, hops⟩ := decode_ok hdecode
      obtain rfl := (commandLength_of_row ho).1 hlen
      cases hops
    rw [step_cons hmoves, takeMove, acceptWord_single hopen hheld hlen, runCommand, hdecode]
  case two =>
    have hopen : cmdReady { s with moves := rest } = true := (cmdReady_iff _).2 ⟨hpend, hrst⟩
    rw [step_cons hmoves, takeMove, acceptWord_of_ready hopen, if_neg (by simp [hheld]), hheld, runCommand]
    simp only [Option.toList_some, List.singleton_append, hdecode]

/-- An event and the sequencer's turn leave the held word. -/
theorem Effect.held_eq {s t : State} {m : Move} (hm : m ∈ [Move.cmp, Move.tick, Move.srdy, Move.sequencer])
    (h : Effect s m t) : t.held = s.held := by
  cases h with
  | holds | rejects | runs | asserts | releases => simp at hm
  | copies => rw [handleSrdy_frame]
  | _ => rfl

/-- Settles O8: word 0 is held by the open port, and the events leave it. -/
theorem wordZeroOfSwriteIsHeld : Obligations.WordZeroOfSwriteIsHeld := by
  refine ⟨fun s w rest hpend hrst hheld hmoves hasw hop => ?taken, fun s t m rest hmoves hm hstep => ?kept⟩
  case taken =>
    have hopen : cmdReady { s with moves := rest } = true := (cmdReady_iff _).2 ⟨hpend, hrst⟩
    rw [step_cons hmoves, takeMove, acceptWord_of_ready hopen,
      if_pos ⟨hheld, commandLength_eq_two_iff_op.2 ⟨hasw, hop⟩⟩]
  case kept =>
    rw [step_cons hmoves] at hstep
    have heffect : Effect { s with moves := rest } m t := takeMove_effect hstep
    exact heffect.held_eq (s := { s with moves := rest }) hm

/-- Settles O9: the port is closed. -/
theorem closedPortTakesNoWord : Obligations.ClosedPortTakesNoWord := by
  intro s w rest hclosed hmoves
  have hready : cmdReady { s with moves := rest } = false := by
    rcases hclosed with h | h <;> simp [cmdReady, h]
  rw [step_cons hmoves, takeMove, acceptWord_of_closed hready]

end Sys2Proof.Proofs
end

section
/-! PROOF. The unit U1 (40_fixedpoint.md R116, R117, 41_reciprocal.md R142 to R148, 10_state.md R31): the conversions,
the loop invariant, the closed form and the accuracy of INV, and the purity and frame of the seven commands. -/

namespace Sys2Proof.Proofs

open Sys2Proof.Machine Sys2Proof.Safety Sys2Proof.Laws

/-! ## The conversions (R116, R117) -/

/-- Settles O16: both answer the shifted significand, TOI16 its low half. -/
theorem integerConversions : Obligations.IntegerConversions := by
  intro w s
  obtain ⟨hval, hlt⟩ := shiftedSig_toNat w
  refine ⟨⟨_, exec_toi16 w s, ?_⟩, _, exec_toi32 w s, hval, hlt⟩
  rw [zext32_toNat, BitVec.toNat_setWidth, hval]

/-! ## The restoring division (R142) -/

/-- Settles O18: the loop invariant, with the part of the numerator consumed written out. -/
theorem restoringDivisionLoopInvariant : Obligations.RestoringDivisionLoopInvariant := by
  rintro d k hpos hmax hk1 hk r rfl
  obtain ⟨j, rfl⟩ := Nat.exists_eq_add_of_le' hk1
  obtain ⟨hdiv, hcount, hrem, hquot⟩ :=
    loopInv_iterate hpos (hmax.trans (by decide)) (by omega : j + 1 ≤ 63)
  exact ⟨hdiv, hcount, hrem, hquot⟩

/-! ## What INV answers and leaves (R144 to R147) -/

/-- Settles O17: the significand is zero. -/
theorem inverseOfZeroSignificand : Obligations.InverseOfZeroSignificand := fun f x s hf =>
  exec_inv_of_zero ((sig_eq_zero_iff f).2 hf) x s

/-- The registers INV leaves, for a non-zero significand, in the closed form of R143. -/
theorem restoringDivide_divisor (f : Half) {D L : Nat} (hD : D = f.toNat / 16 * 16 + 1) (hL : L = Nat.clog 2 D) :
    (restoringDivide (divisor f)).d.toNat = D ∧ (restoringDivide (divisor f)).q.toNat = 2 ^ (L + 11) / D
      ∧ (restoringDivide (divisor f)).n.toNat = L + 12 ∧ (restoringDivide (divisor f)).rem.toNat = 2 ^ (L + 11) % D
      ∧ 2 ^ 11 ≤ 2 ^ (L + 11) / D ∧ 2 ^ (L + 11) / D < 2 ^ 12 := by
  have hdiv : (divisor f).toNat = D := (divisor_toNat f).trans hD.symm
  have hmax : D ≤ 0xFFF1 := by have := f.isLt; omega
  obtain ⟨hn, hq, hlow, hhigh, hrem, -⟩ :=
    restoringDivisionTerminates (divisor f) _ L (by omega) (by omega) rfl (hdiv.symm ▸ hL)
  have hd : (restoringDivide (divisor f)).d = divisor f :=
    (loopInv_restoringDivide (by omega) (by omega)).divisor_eq
  rw [hdiv] at hq hrem
  exact ⟨(congrArg BitVec.toNat hd).trans hdiv, hq, hn, hrem, hq ▸ hlow, by omega⟩

/-- Settles O21: INV leaves the registers of the division, or with a zero significand the registers it found. -/
theorem inverseLeavesTheLoopsRegisters : Obligations.InverseLeavesTheLoopsRegisters := by
  intro f x s
  by_cases hf : sig f = 0
  · have hzero := (sig_eq_zero_iff f).1 hf
    exact ⟨_, exec_inv_of_zero hf x s, fun _ => rfl, fun hne => absurd (by omega) hne⟩
  · have hne := (sig_eq_zero_iff f).not.1 hf
    refine ⟨_, exec_inv_of_ne hf x s, fun hzero => absurd (by omega) hne, fun _ D L hD hL => ?_⟩
    obtain ⟨hd, hq, hn, hrem, -⟩ := restoringDivide_divisor f hD hL
    exact ⟨hd, hq, hn, hrem⟩

/-- The quotient is normalized as a significand with its four low bits zero, and with the exponent of R144. -/
theorem invResult_eq (f : Half) (x : Int) {D L : Nat} (hD : D = f.toNat / 16 * 16 + 1) (hL : L = Nat.clog 2 D) :
    ∃ sg : Half, sg.toNat = 2 ^ (L + 11) / D * 16
      ∧ invResult f x (restoringDivide (divisor f)) = normalize sg (x - (f.toNat % 16 : Nat) - L - 15) := by
  obtain ⟨-, hq, hn, -, -, hhigh⟩ := restoringDivide_divisor f hD hL
  refine ⟨(restoringDivide (divisor f)).q.setWidth 16 <<< 4, ?_, ?_⟩
  · rw [BitVec.toNat_shiftLeft, BitVec.toNat_setWidth, Nat.shiftLeft_eq, hq]
    omega
  · have hE : invExponent f x (restoringDivide (divisor f)) = x - (f.toNat % 16 : Nat) - L - 15 := by
      rw [invExponent, hn, expo_toNat]
      omega
    rw [invResult, hE]

/-- Settles O20: the division's quotient, normalized in each range of the exponent; from 2^11 on, a quotient shifted
left by one more place saturates. -/
theorem inverseClosedForm : Obligations.InverseClosedForm := by
  refine fun f x s => ⟨fun hzero => exec_inv_of_zero ((sig_eq_zero_iff f).2 (by omega)) x s, ?_⟩
  rintro hne D L Q E hD hL rfl rfl
  obtain ⟨sg, hsg, hresult⟩ := invResult_eq f x hD hL
  obtain ⟨-, -, -, -, hlow, -⟩ := restoringDivide_divisor f hD hL
  refine ⟨_, _, exec_inv_of_ne ((sig_eq_zero_iff f).not.2 (by omega)) x s, ?_⟩
  rw [zext32_toNat, hresult, ← hsg]
  refine ⟨fun hE => ?saturates, fun h0 h15 => ?inRange, fun _ hneg => normalize_toNat_of_neg sg hneg,
    normalize_toNat_of_le_neg16 sg⟩
  case saturates =>
    have hshift : 2 ^ 1 ≤ 2 ^ (x - (f.toNat % 16 : Nat) - L - 15 - 15).toNat :=
      Nat.pow_le_pow_right Nat.two_pos (by omega)
    have hover : 2 ^ 15 * 2 ^ 1 ≤ sg.toNat * 2 ^ (x - (f.toNat % 16 : Nat) - L - 15 - 15).toNat :=
      Nat.mul_le_mul (by omega) hshift
    rw [normalize_of_saturates sg hE hover]
    rfl
  case inRange =>
    rw [normalize_toNat_of_inRange sg h0 h15]
    omega

/-! ## The accuracy of INV (R148) -/

/-- The quotient is an underestimate of `P / (S + 1)`: with `S` in place of `S + 1` it stays below `P`. -/
theorem div_succ_mul_lt {P S : Nat} (hP : 0 < P) : P / (S + 1) * S < P := by
  by_cases hQ : P / (S + 1) = 0
  · simpa [hQ] using hP
  · calc P / (S + 1) * S
        < P / (S + 1) * (S + 1) := Nat.mul_lt_mul_of_pos_left S.lt_succ_self (Nat.pos_of_ne_zero hQ)
      _ ≤ P := Nat.div_mul_le_self _ _

/-- The quotient is above `P / (S + 1)` less one, which is within `2^-11` of it where `P` is at least
`2^11 * (S + 1)`. -/
theorem mul_lt_div_succ_mul {P S : Nat} (hS : 0 < S) (hP : 2 ^ 11 * (S + 1) ≤ P) :
    P * ((S + 1) * 2 ^ 11 - 2 ^ 11 - (S + 1)) < P / (S + 1) * S * ((S + 1) * 2 ^ 11) := by
  have hmod : P % (S + 1) ≤ S := Nat.le_of_lt_succ (Nat.mod_lt P S.succ_pos)
  have hrest : P % (S + 1) * (S * 2 ^ 11) < P * (S + 1) :=
    calc P % (S + 1) * (S * 2 ^ 11)
        ≤ S * (S * 2 ^ 11) := Nat.mul_le_mul_right _ hmod
      _ < 2 ^ 11 * (S + 1) * (S + 1) := by nlinarith
      _ ≤ P * (S + 1) := Nat.mul_le_mul_right _ hP
  have hsum : P * (S * 2 ^ 11) < P / (S + 1) * S * ((S + 1) * 2 ^ 11) + P * (S + 1) :=
    calc P * (S * 2 ^ 11)
        = ((S + 1) * (P / (S + 1)) + P % (S + 1)) * (S * 2 ^ 11) := by rw [Nat.div_add_mod]
      _ = P / (S + 1) * S * ((S + 1) * 2 ^ 11) + P % (S + 1) * (S * 2 ^ 11) := by ring
      _ < P / (S + 1) * S * ((S + 1) * 2 ^ 11) + P * (S + 1) := Nat.add_lt_add_left hrest _
  have hdiff : (S + 1) * 2 ^ 11 - 2 ^ 11 - (S + 1) = S * 2 ^ 11 - (S + 1) := by omega
  have hle : P * (S + 1) ≤ P * (S * 2 ^ 11) := Nat.mul_le_mul_left _ (by omega)
  rw [hdiff, Nat.mul_sub]
  omega

/-- Settles O22: where no bit is lost the product is `Q * S` and the target `2^(L+11)`, both times one scale factor,
and `Q` is the quotient of that target by `S + 1`. -/
theorem inverseAccuracy : Obligations.InverseAccuracy := by
  intro f x s S E hf hS hE h0 h15
  have hclosed := (inverseClosedForm f x s).2 (by omega) (S + 1) (Nat.clog 2 (S + 1)) _ E (by omega) rfl rfl hE
  obtain ⟨r, v, hexec, -, hinRange, -⟩ := hclosed
  refine ⟨r, v, hexec, ?_⟩
  have hv := hinRange h0 h15
  have hsig : v.toNat / 16 = 2 ^ (Nat.clog 2 (S + 1) + 11) / (S + 1) := by omega
  have hexp : v.toNat % 16 = E.toNat := by omega
  have hx : x.toNat = Nat.clog 2 (S + 1) + 11 + 4 + E.toNat + f.toNat % 16 := by omega
  have hP : 2 ^ 11 * (S + 1) ≤ 2 ^ (Nat.clog 2 (S + 1) + 11) := by
    rw [two_pow_mul_le_two_pow_iff S.succ_pos]
  have htarget : 2 ^ x.toNat = 2 ^ (Nat.clog 2 (S + 1) + 11) * (2 ^ 4 * 2 ^ E.toNat * 2 ^ (f.toNat % 16)) := by
    rw [hx, pow_add, pow_add, pow_add]
    ring
  have hproduct : v.toNat / 16 * 16 * 2 ^ (v.toNat % 16) * (S * 2 ^ (f.toNat % 16))
      = 2 ^ (Nat.clog 2 (S + 1) + 11) / (S + 1) * S * (2 ^ 4 * 2 ^ E.toNat * 2 ^ (f.toNat % 16)) := by
    rw [hsig, hexp]
    ring
  have hscale : 0 < 2 ^ 4 * 2 ^ E.toNat * 2 ^ (f.toNat % 16) := by positivity
  rw [htarget, hproduct]
  refine ⟨Nat.mul_lt_mul_of_pos_right (div_succ_mul_lt (Nat.two_pow_pos _)) hscale, ?_⟩
  rw [Nat.mul_right_comm _ _ ((S + 1) * 2 ^ 11 - 2 ^ 11 - (S + 1)), Nat.mul_right_comm _ _ ((S + 1) * 2 ^ 11)]
  exact Nat.mul_lt_mul_of_pos_right (mul_lt_div_succ_mul (by omega) hP) hscale

/-! ## Purity and frame (10_state.md R31) -/

/-- The commands of U1 that write no state. -/
def isFormatCommand (i : Instr) : Prop :=
  (∃ a e, i = .compose a e) ∨ (∃ a, i = .exsig a) ∨ (∃ a, i = .exexp a) ∨ (∃ a e, i = .norm a e)
    ∨ (∃ a, i = .toi16 a) ∨ (∃ a, i = .toi32 a)

/-- They answer a word of their operands and do nothing else. -/
theorem exec_formatCommand {i : Instr} (hi : isFormatCommand i) :
    ∃ v, ∀ s, exec i s = .next (respond .ok v s) := by
  obtain ⟨a, e, rfl⟩ | ⟨a, rfl⟩ | ⟨a, rfl⟩ | ⟨a, e, rfl⟩ | ⟨a, rfl⟩ | ⟨a, rfl⟩ := hi
  exacts [⟨_, exec_compose a e⟩, ⟨_, exec_exsig a⟩, ⟨_, exec_exexp a⟩, ⟨_, exec_norm a e⟩, ⟨_, exec_toi16 a⟩,
    ⟨_, exec_toi32 a⟩]

/-- INV answers a word of its operands, and writes the working registers at most. -/
theorem exec_inv (f : Half) (x : Int) :
    ∃ v, ∀ s, ∃ r, exec (.inv f x) s = .next (respond .ok v { s with inv := r }) := by
  by_cases hf : sig f = 0
  · exact ⟨_, fun s => ⟨s.inv, exec_inv_of_zero hf x s⟩⟩
  · exact ⟨_, fun s => ⟨_, exec_inv_of_ne hf x s⟩⟩

/-- Settles O23: the word answered depends on the operands only. -/
theorem fixedPointCommandsReadNoState : Obligations.FixedPointCommandsReadNoState := by
  intro i s s' hi
  by_cases hformat : isFormatCommand i
  · obtain ⟨v, hv⟩ := exec_formatCommand hformat
    exact ⟨_, _, _, hv s, hv s', rfl, rfl, rfl⟩
  · obtain ⟨f, x, rfl⟩ : ∃ f x, i = .inv f x := by
      simp only [isFormatCommand, not_or] at hformat
      simpa only [hformat, false_or, or_false] using hi
    obtain ⟨v, hv⟩ := exec_inv f x
    obtain ⟨r, hr⟩ := hv s
    obtain ⟨r', hr'⟩ := hv s'
    exact ⟨_, _, _, hr, hr', rfl, rfl, rfl⟩

/-- No command writes what the ports and the spaces hold. -/
theorem CommandEffect.portsUnchanged {s t : State} {i : Instr} (h : CommandEffect s i t) : PortsUnchanged s t := by
  cases h <;> exact ⟨rfl, rfl, rfl, rfl, rfl, rfl⟩

theorem CommandEffect.spacesUnchanged {s t : State} {i : Instr} (h : CommandEffect s i t) : SpacesUnchanged s t :=
  spacesUnchanged_of_eq h.spaces_eq.1 h.spaces_eq.2.1

/-- Settles O24: one response more, and for INV the working registers. -/
theorem fixedPointCommandsFrame : Obligations.FixedPointCommandsFrame := by
  intro i s t h
  have heffect := exec_next_effect h
  refine ⟨fun hi => ?format, ?inv⟩
  case format =>
    obtain ⟨v, hv⟩ := exec_formatCommand hi
    obtain rfl := Host.Outcome.next.inj ((hv s).symm.trans h)
    exact ⟨rfl, rfl, rfl, rfl, heffect.portsUnchanged, heffect.spacesUnchanged⟩
  case inv =>
    rintro ⟨f, x, rfl⟩
    obtain ⟨v, hv⟩ := exec_inv f x
    obtain ⟨r, hr⟩ := hv s
    obtain rfl := Host.Outcome.next.inj (hr.symm.trans h)
    exact ⟨rfl, rfl, rfl, heffect.portsUnchanged, heffect.spacesUnchanged⟩

end Sys2Proof.Proofs
end

section
/-! PROOF. The capture unit over commands, events and runs (42_capture.md R160 to R183, 60_exceptions.md R235,
70_reset_and_hazards.md R272): the frames, the transitions, and how a capture ends. -/

namespace Sys2Proof.Proofs

open Sys2Proof.Machine Sys2Proof.Safety Sys2Proof.Laws

/-! ## Frames -/

/-- Settles O33: the equation of each command. -/
theorem captureCommandsFrame : Obligations.CaptureCommandsFrame := by
  intro i s t h
  have heffect := exec_next_effect h
  refine ⟨?cstat, ?creset, ?cstart, ?cget, ?units⟩
  case cstat =>
    rintro rfl
    cases h
    exact ⟨rfl, rfl⟩
  case creset =>
    rintro ⟨m, rfl⟩
    cases h
    exact ⟨rfl, rfl, rfl, rfl, rfl⟩
  case cstart =>
    rintro ⟨p, rfl⟩
    by_cases hp : p = 0
    · obtain rfl := Host.Outcome.next.inj (h.symm.trans (hp ▸ exec_cstart_zero s))
      exact ⟨rfl, rfl, rfl, rfl, rfl, rfl, rfl, rfl, rfl⟩
    · obtain rfl := Host.Outcome.next.inj (h.symm.trans (exec_cstart_of_ne hp s))
      exact ⟨rfl, rfl, rfl, rfl, rfl, rfl, rfl, rfl, rfl⟩
  case cget =>
    rintro rfl
    cases h
    exact ⟨rfl, rfl, rfl, rfl, rfl, rfl, rfl⟩
  case units =>
    refine fun hi => ⟨?_, ?_, heffect.portsUnchanged, heffect.spacesUnchanged⟩
    · cases heffect with
      | divides => simp at hi
      | _ => rfl
    · cases heffect with
      | records => simp at hi
      | _ => rfl

/-- Settles O34: each effect of the two events. -/
theorem captureEventsFrame : Obligations.CaptureEventsFrame := by
  intro s t m rest hmoves hm h
  rw [step_cons hmoves] at h
  have heffect : Effect { s with moves := rest } m t := takeMove_effect h
  rcases hm with rfl | rfl
  · cases heffect <;> exact ⟨rfl, fun _ => rfl⟩
  · cases heffect <;> exact ⟨rfl, nofun⟩

/-! ## Which step changes the state and the prescaler -/

/-- Of the commands only the three that capture write U2. -/
theorem CommandEffect.cap_eq {s t : State} {i : Instr} (h : CommandEffect s i t)
    (hi : rowOf i ∉ [Opcode.creset, Opcode.cstart, Opcode.cget]) : t.cap = s.cap := by
  cases h with
  | precharges | starts | issues => simp [rowOf] at hi
  | _ => rfl

/-- Where the port holds at most a word 0, any command but SWRITE is one word. -/
theorem decode_oneWord {hasAsw : Bool} {held : Option Word32} {w : Word32} {i : Instr} {rest : List Word32}
    (hport : ∀ w0, held = some w0 → commandLength hasAsw w0 = 2)
    (hdecode : decode hasAsw (held.toList ++ [w]) = .ok i rest) (hi : rowOf i ≠ .swrite) :
    decode hasAsw [w] = .ok i [] := by
  cases held with
  | some w0 =>
    obtain ⟨o, ho, hops⟩ := decode_ok hdecode
    exact absurd ((rowOf_decodeOperands hops).trans ((commandLength_of_row ho).1 (hport w0 rfl))) hi
  | none =>
    obtain ⟨o, -, hops⟩ := decode_ok hdecode
    obtain ⟨ho, -⟩ | ⟨-, hrest⟩ := decodeOperands_rest hops
    · exact absurd ((rowOf_decodeOperands hops).trans ho) hi
    · exact hrest ▸ hdecode

/-- A move other than the sequencer's turn stands first in the schedule. -/
theorem moves_of_nextMove {s : State} {m : Move} (h : nextMove s = m) (hm : m ≠ .sequencer) :
    s.moves = m :: s.moves.tail := by
  cases hmoves : s.moves with
  | nil => rw [nextMove, hmoves] at h; exact absurd h.symm hm
  | cons m' rest => rw [nextMove_of_cons hmoves] at h; rw [h, List.tail_cons]

/-- Settles O40: the effects that write `CSTATE`, and the one-word commands among them. -/
theorem onlyTheseTransitionsOfTheCaptureState : Obligations.OnlyTheseTransitionsOfTheCaptureState := by
  intro s t hport hstep hne
  have heffect := step_effect hstep
  generalize hm : nextMove s = m at heffect
  have hheld : ∀ w0, s.held = some w0 → commandLength s.params.hasAsw w0 = 2 := fun w0 h => (hport w0 h).1
  cases heffect with
  | runs hopen hdecode hcommand =>
    refine ⟨_, _, moves_of_nextMove hm nofun, ?_⟩
    cases hcommand with
    | precharges mode => exact .inl ⟨rfl, _, mode, rfl, decode_oneWord hheld hdecode nofun⟩
    | starts hp =>
      exact .inr (.inl ⟨rfl, _, rfl, .inl ⟨_, BitVec.toNat_ne_iff_ne.2 hp, decode_oneWord hheld hdecode nofun⟩⟩)
    | issues => exact .inr (.inl ⟨rfl, _, rfl, .inr (decode_oneWord hheld hdecode nofun)⟩)
    | _ => exact absurd rfl hne
  | latches _ harmed hs =>
    exact ⟨_, _, moves_of_nextMove hm nofun, .inr (.inr (.inl ⟨rfl, hs, harmed, rfl⟩))⟩
  | overflows _ _ hc hs =>
    exact ⟨_, _, moves_of_nextMove hm nofun,
      .inr (.inr (.inr (.inl ⟨rfl, hs, congrArg BitVec.toNat hc, rfl⟩)))⟩
  | asserts => exact ⟨_, _, moves_of_nextMove hm nofun, .inr (.inr (.inr (.inr ⟨rfl, .inl rfl⟩)))⟩
  | releases => exact ⟨_, _, moves_of_nextMove hm nofun, .inr (.inr (.inr (.inr ⟨rfl, .inr rfl⟩)))⟩
  | copies => rw [handleSrdy_frame] at hne; exact absurd rfl hne
  | _ => exact absurd rfl hne

/-- Auto-ranging moves the prescaler of the pending CGET by one, or not at all, and keeps it in 1 to 15 (R172). -/
theorem autoRange_step {uthr : Byte} {c : CaptureRegs} (hinv : CaptureInv c) (hpend : c.gpend = true) :
    ((autoRange uthr c).toNat = c.presc.toNat ∨ (autoRange uthr c).toNat = c.presc.toNat + 1
        ∨ (autoRange uthr c).toNat + 1 = c.presc.toNat)
      ∧ 1 ≤ (autoRange uthr c).toNat ∧ (autoRange uthr c).toNat ≤ 15 := by
  obtain ⟨hlow, hhigh⟩ := hinv.range
  have hused : c.presc.toNat = c.gpUsed.toNat := congrArg BitVec.toNat (hinv.pending hpend).2
  by_cases hov : c.cstate = .completeOverflow
  · have hup := autoRange_toNat_of_overflow (uthr := uthr) hov
    omega
  · by_cases hraw : c.raw.toNat < uthr.toNat
    · have hdown := autoRange_toNat_of_underflow hov hraw
      omega
    · have hstay := autoRange_of_inRange hov (Nat.le_of_not_lt hraw)
      rw [hstay]
      omega

/-- Settles O41: the effects that write `PRESC`. -/
theorem onlyTheCompletionStepMovesThePrescaler : Obligations.OnlyTheCompletionStepMovesThePrescaler := by
  intro s t hinv hstep hne
  have heffect := step_effect hstep
  generalize hm : nextMove s = m at heffect
  cases heffect with
  | completes hpend hended =>
    obtain ⟨hmove, -⟩ := autoRange_step (uthr := s.params.uthr) hinv hpend
    exact .inl ⟨hpend, hended, rfl, hm, hmove.resolve_left (BitVec.toNat_ne_iff_ne.2 hne)⟩
  | asserts => exact .inr (.inl (by rw [moves_of_nextMove hm nofun]; rfl))
  | releases => exact .inr (.inr (by rw [moves_of_nextMove hm nofun]; rfl))
  | runs _ _ hcommand => cases hcommand <;> exact absurd rfl hne
  | copies => rw [handleSrdy_frame] at hne; exact absurd rfl hne
  | _ => exact absurd rfl hne

end Sys2Proof.Proofs
end

section
/-! PROOF. Runs of a capture (42_capture.md R180, R183, 60_exceptions.md R235, 70_reset_and_hazards.md R272): how runs
compose, what a row of timer clocks does, the two outcomes of CGET, and that a capture always terminates. -/

namespace Sys2Proof.Proofs

open Sys2Proof.Machine Sys2Proof.Safety Sys2Proof.Laws

/-! ## Runs -/

/-- A run begins with a step. -/
theorem run_of_step {s t : State} (k : Nat) (h : step s = .next t) : core.run (k + 1) s = core.run k t := run_succ k h

theorem run_one {s t : State} (h : step s = .next t) : core.run 1 s = .next t := run_of_step 0 h

/-- A run that comes to an end began with a step. -/
theorem step_of_run {s t : State} {k : Nat} (h : core.run (k + 1) s = .next t) :
    ∃ u, step s = .next u ∧ core.run k u = .next t := by
  cases hstep : step s with
  | next u => exact ⟨u, rfl, (run_of_step k hstep).symm.trans h⟩
  | fault r => cases r
  | refused r => simp [Host.Core.run, core, hstep] at h

/-- A run goes on where a shorter one has come. -/
theorem run_add {s u : State} {k : Nat} (j : Nat) (h : core.run k s = .next u) :
    core.run (k + j) s = core.run j u := by
  induction k generalizing s with
  | zero =>
    obtain rfl := Host.Outcome.next.inj h
    rw [Nat.zero_add]
  | succ k ih =>
    obtain ⟨s', hstep, hrun⟩ := step_of_run h
    rw [Nat.add_right_comm, run_of_step _ hstep]
    exact ih hrun

/-! ## Timer clocks in a row -/

/-- Below the overflow `k` timer clocks count `k`. -/
theorem run_ticks {s : State} {rest : List Move} {k : Nat} (hrst : s.rst = false) (hruns : s.cap.tdiv.toNat ≠ 0)
    (hk : s.cap.tcnt.toNat + k ≤ 255) (hmoves : s.moves = List.replicate k .tick ++ rest) :
    ∃ c : Byte, core.run k s = .next { s with moves := rest, cap.tcnt := c } ∧ c.toNat = s.cap.tcnt.toNat + k := by
  induction k generalizing s with
  | zero =>
    obtain rfl : s.moves = rest := hmoves
    exact ⟨s.cap.tcnt, rfl, rfl⟩
  | succ k ih =>
    obtain ⟨c, hstep, hc⟩ := (timerClockCountsAndOverflows s _ hmoves hrst).1 hruns (by omega)
    obtain ⟨c', hrun, hc'⟩ :=
      ih (s := { s with moves := List.replicate k .tick ++ rest, cap.tcnt := c }) hrst hruns
        (by show c.toNat + k ≤ 255; omega) rfl
    refine ⟨c', (run_of_step k hstep).trans hrun, ?_⟩
    rw [hc', hc]
    omega

/-- The timer clock that takes the count past 0xFF ends a capture with the sentinel. -/
theorem run_ticks_overflow {s : State} {rest : List Move} {k : Nat} (hrst : s.rst = false)
    (hruns : s.cap.tdiv.toNat ≠ 0) (hs : s.cap.cstate = .sampling) (hk : s.cap.tcnt.toNat + k = 256)
    (hmoves : s.moves = List.replicate k .tick ++ rest) :
    core.run k s
      = .next
        { s with moves := rest, cap.tcnt := 0, cap.raw := 0xFF, cap.tdiv := 0, cap.cstate := .completeOverflow } := by
  have := s.cap.tcnt.isLt
  obtain ⟨j, rfl⟩ := Nat.exists_eq_succ_of_ne_zero (by omega : k ≠ 0)
  rw [List.replicate_succ', List.append_assoc] at hmoves
  obtain ⟨c, hrun, hc⟩ := run_ticks hrst hruns (by omega) hmoves
  have hlast := (timerClockCountsAndOverflows { s with moves := .tick :: rest, cap.tcnt := c } rest rfl hrst).2.1
    hruns (by show c.toNat = 0xFF; omega) hs
  exact (run_add 1 hrun).trans (run_one hlast)

/-- A start, by CSTART or by CGET, begins to count from where the count stands. -/
theorem exec_start {s : State} {i : Instr}
    (hi : (∃ p : Nibble, p.toNat ≠ 0 ∧ i = .cstart p) ∨ (i = .cget ∧ 1 ≤ s.cap.presc.toNat)) :
    ∃ t, exec i s = .next t ∧ t.cap.cstate = .sampling ∧ t.cap.tdiv.toNat ≠ 0 ∧ t.cap.tcnt = s.cap.tcnt
      ∧ t.rst = s.rst := by
  obtain ⟨p, hp, rfl⟩ | ⟨rfl, hpresc⟩ := hi
  · exact ⟨_, exec_cstart_of_ne (BitVec.toNat_ne_iff_ne.1 hp) s, rfl, hp, rfl, rfl⟩
  · exact ⟨_, exec_cget s, rfl, by show s.cap.presc.toNat ≠ 0; omega, rfl, rfl⟩

/-- Settles O57: the clocks count up to 0xFF, and the last one overflows. -/
theorem overflowComesAfterTheRemainingCounts : Obligations.OverflowComesAfterTheRemainingCounts := by
  intro s i rest hi hrst _
  obtain ⟨t, hexec, hs, hruns, htcnt, htrst⟩ := exec_start hi
  refine ⟨t, hexec, fun k hk => ?_⟩
  have hlt := s.cap.tcnt.isLt
  have hcount : t.cap.tcnt.toNat = s.cap.tcnt.toNat := congrArg BitVec.toNat htcnt
  obtain hbefore | hlast := Nat.lt_or_eq_of_le hk
  · obtain ⟨c, hrun, hc⟩ :=
      run_ticks (s := { t with moves := List.replicate k .tick ++ rest }) (htrst.trans hrst) hruns
        (by show t.cap.tcnt.toNat + k ≤ 255; omega) rfl
    exact ⟨_, hrun, fun _ => ⟨hs, by rw [hc, ← hcount]⟩, fun h => absurd h hbefore.ne⟩
  · have hrun :=
      run_ticks_overflow (s := { t with moves := List.replicate k .tick ++ rest }) (htrst.trans hrst) hruns hs
        (by show t.cap.tcnt.toNat + k = 256; omega) rfl
    exact ⟨_, hrun, fun h => absurd hlast h.ne, fun _ => ⟨rfl, rfl, rfl⟩⟩

/-! ## The outcomes of CGET (R183, R235) -/

/-- The word 0x12000000 is CGET, with U3 or without. -/
theorem decode_cgetWord (hasAsw : Bool) : decode hasAsw [0x12000000] = .ok .cget [] := by
  cases hasAsw <;> decide

/-- The state after the issue step of CGET (R170), with `rest` still to come. -/
def afterIssue (s : State) (rest : List Move) : State :=
  { s with
    moves := rest, cap.gpUsed := s.cap.presc, cap.cstate := .sampling, cap.cie := true
    cap.tdiv := s.cap.presc, cap.senseOe := false, cap.gpend := true }

/-- The step that issues CGET. -/
theorem step_cgetWord {s : State} {rest : List Move} (hpend : s.cap.gpend = false) (hrst : s.rst = false)
    (hheld : s.held = none) (hmoves : s.moves = .word 0x12000000 :: rest) : step s = .next (afterIssue s rest) :=
  (stepRunsTheDecodedCommand.1 s _ rest .cget [] hpend hrst hheld hmoves (decode_cgetWord _)).trans (exec_cget _)

/-- Settles O37: the issue step, the clocks, the edge and the completion step, one after the other. -/
theorem captureOutcomeBeforeOverflow : Obligations.CaptureOutcomeBeforeOverflow := by
  intro s c rest hc hcount hpresc hpend hrst hheld hmoves
  have hissue := step_cgetWord hpend hrst hheld hmoves
  obtain ⟨n, hticks, hn⟩ := run_ticks (s := afterIssue s _) (rest := .cmp :: .sequencer :: rest) hrst
    (show s.cap.presc.toNat ≠ 0 by omega) (show s.cap.tcnt.toNat + c ≤ 255 by omega) rfl
  have hn' : n.toNat = c := hn.trans (show s.cap.tcnt.toNat + c = c by omega)
  have hedge := (comparatorEdgeLatchesTheCount
    { afterIssue s (.cmp :: .sequencer :: rest) with cap.tcnt := n } _ rfl hrst).1 rfl rfl
  obtain ⟨v, p, hanswer, -, hsample⟩ := (cgetCompletionAnswersTheSample
    { afterIssue s (.sequencer :: rest) with
      cap.tcnt := n, cap.raw := n, cap.tdiv := 0, cap.cstate := .complete } rest rfl hrst).1 rfl nofun hpresc
  obtain ⟨hv, hunder, hstay⟩ := hsample nofun
  refine ⟨_, (run_of_step _ hissue).trans ((run_add 2 hticks).trans ((run_of_step 1 hedge).trans (run_one hanswer))),
    ⟨v, rfl, hn' ▸ hv⟩, rfl, hn', rfl, fun h => hunder (hn'.symm ▸ h), fun h => hstay (hn'.symm ▸ h)⟩

/-- Settles O38: the issue step, 256 clocks and the completion step. -/
theorem captureOutcomeOnOverflow : Obligations.CaptureOutcomeOnOverflow := by
  intro s rest hcount hpresc hpend hrst hheld hmoves
  have hissue := step_cgetWord hpend hrst hheld hmoves
  have hticks := run_ticks_overflow (s := afterIssue s _) (rest := .sequencer :: rest) hrst
    (show s.cap.presc.toNat ≠ 0 by omega) rfl (show s.cap.tcnt.toNat + 256 = 256 by omega) rfl
  obtain ⟨v, p, hanswer, hsentinel, -⟩ := (cgetCompletionAnswersTheSample
    { afterIssue s (.sequencer :: rest) with
      cap.tcnt := 0, cap.raw := 0xFF, cap.tdiv := 0, cap.cstate := .completeOverflow } rest rfl hrst).1 rfl nofun
      hpresc
  obtain ⟨hv, hp⟩ := hsentinel rfl
  obtain rfl : v = 0x0000FFFF := BitVec.eq_of_toNat_eq hv
  exact ⟨_, (run_of_step 257 hissue).trans ((run_add 1 hticks).trans (run_one hanswer)), rfl, rfl, rfl, rfl, rfl, hp⟩

/-- Settles O39: the first event ends the capture, and the second is ignored: no longer sampling, or the timer
stopped. -/
theorem eitherEventFirstAtTheBoundary : Obligations.EitherEventFirstAtTheBoundary := by
  intro s rest hrst hs harmed hruns hcount
  have hraw : s.cap.tcnt = 0xFF := BitVec.eq_of_toNat_eq hcount
  refine ⟨fun hmoves => ?edgeFirst, fun hmoves => ?clockFirst⟩
  case edgeFirst =>
    have hedge := (comparatorEdgeLatchesTheCount s _ hmoves hrst).1 harmed hs
    have hclock := (timerClockCountsAndOverflows
      { s with moves := .tick :: rest, cap.raw := s.cap.tcnt, cap.tdiv := 0, cap.cstate := .complete }
      rest rfl hrst).2.2.2 rfl
    rw [hraw] at hedge hclock
    exact (run_of_step 1 hedge).trans (run_one hclock)
  case clockFirst =>
    have hclock := (timerClockCountsAndOverflows s _ hmoves hrst).2.1 hruns hcount hs
    have hedge := (comparatorEdgeLatchesTheCount
      { s with
        moves := .cmp :: rest, cap.tcnt := 0, cap.raw := 0xFF, cap.tdiv := 0, cap.cstate := .completeOverflow }
      rest rfl hrst).2 (.inr nofun)
    exact (run_of_step 1 hclock).trans (run_one hedge)

end Sys2Proof.Proofs
end

section
/-! PROOF. A capture always terminates (42_capture.md R180): a measure on the capture that every admitted move keeps and
every timer clock lowers, and the account of the one response a pending CGET is owed. -/

namespace Sys2Proof.Proofs

open Sys2Proof.Machine Sys2Proof.Safety Sys2Proof.Laws

/-- The capture has ended, or counts and overflows within `k` timer clocks. -/
def EndsWithin (k : Nat) (c : CaptureRegs) : Prop :=
  (c.cstate = .sampling ∧ c.tdiv ≠ 0 ∧ 256 - c.tcnt.toNat ≤ k) ∨ c.cstate = .complete ∨ c.cstate = .completeOverflow

/-- With no clock left to come the capture has ended. -/
theorem EndsWithin.ended {c : CaptureRegs} (h : EndsWithin 0 c) :
    c.cstate = .complete ∨ c.cstate = .completeOverflow := by
  have := c.tcnt.isLt
  exact h.resolve_left fun ⟨_, _, hk⟩ => by omega

/-- A move R180 lets come: an event, a sequencer's turn, a change of the source space, or where `words` may come a word
of no capture command. -/
def Admitted (words : Prop) : Move → Prop
  | .tick | .cmp | .srdy | .sequencer | .sourcePut _ _ => True
  | .word w => words ∧ w.toNat / 2 ^ 24 ∉ [0x10, 0x11, 0x12]
  | .assertReset | .releaseReset => False

/-- A capture on its way to its end within `k` timer clocks, where `pend` says that a CGET was pending when `rs` were
the responses given. Where `words` may come, none was, and the port holds at most a word 0. -/
structure Terminating (words : Prop) (pend : Bool) (rs : List Response) (k : Nat) (s : State) : Prop where
  running : s.rst = false
  ends : EndsWithin k s.cap
  waiting : s.cap.gpend = true → pend = true ∧ s.responses = rs
  answered : s.cap.gpend = false → pend = true → ∃ v, s.responses = { status := .ok, value := v } :: rs
  port : words → pend = false ∧ ∀ w0, s.held = some w0 → commandLength s.params.hasAsw w0 = 2

section Account

variable {words : Prop} {pend : Bool} {rs : List Response}

/-- Where words may come the port is open. -/
theorem Terminating.port_open {k : Nat} {s : State} (h : Terminating words pend rs k s) (hwords : words) :
    cmdReady s = true := by
  refine (cmdReady_iff s).2 ⟨Bool.eq_false_iff.2 fun hg => ?_, h.running⟩
  exact absurd ((h.waiting hg).1.symm.trans (h.port hwords).1) (by decide)

/-- A word of no capture command, with at most a word 0 held, runs no capture command. -/
theorem rowOf_of_admitted_word {hasAsw : Bool} {held : Option Word32} {w : Word32} {i : Instr} {rest : List Word32}
    (hport : ∀ w0, held = some w0 → commandLength hasAsw w0 = 2) (hop : w.toNat / 2 ^ 24 ∉ [0x10, 0x11, 0x12])
    (hdecode : decode hasAsw (held.toList ++ [w]) = .ok i rest) :
    rowOf i ∉ [Opcode.creset, Opcode.cstart, Opcode.cget] := by
  by_cases hsw : rowOf i = .swrite
  · simp [hsw]
  · obtain ⟨o, ho, hops⟩ := decode_ok (decode_oneWord hport hdecode hsw)
    obtain rfl := rowOf_decodeOperands hops
    intro hcapture
    rw [← opField_toNat, ← (ofCode_eq_some ho).1] at hop
    simp only [List.mem_cons, List.not_mem_nil, or_false] at hcapture
    rcases hcapture with h | h | h <;> rw [h] at hop <;> exact hop (by decide)

/-- A word of no capture command leaves U2, and the port holds nothing or again a word 0. -/
theorem Effect.admitted_word {s t : State} {w : Word32} (h : Effect s (.word w) t)
    (hport : ∀ w0, s.held = some w0 → commandLength s.params.hasAsw w0 = 2)
    (hop : w.toNat / 2 ^ 24 ∉ [0x10, 0x11, 0x12]) :
    t.cap = s.cap ∧ t.rst = s.rst ∧ ∀ w0, t.held = some w0 → commandLength t.params.hasAsw w0 = 2 := by
  cases h with
  | keeps => exact ⟨rfl, rfl, hport⟩
  | holds _ _ hlen => exact ⟨rfl, rfl, fun w0 hw => by cases hw; exact hlen⟩
  | rejects => exact ⟨rfl, rfl, nofun⟩
  | runs _ hdecode hcommand =>
    refine ⟨hcommand.cap_eq (rowOf_of_admitted_word hport hop hdecode), hcommand.rst_eq, ?_⟩
    rw [hcommand.held_eq]
    exact nofun

/-- An admitted event brings the end one timer clock nearer if it is one, and does not put it off. -/
theorem Effect.endsWithin {s t : State} {m : Move} {k : Nat} (h : Effect s m t)
    (hm : m = .tick ∨ m = .cmp) (hrst : s.rst = false) (hends : EndsWithin (k + [m].count .tick) s.cap) :
    EndsWithin k t.cap := by
  cases h with
  | keeps hstopped =>
    obtain rfl | rfl := hm
    · exact .inr (hends.resolve_left fun ⟨_, hruns, _⟩ => hruns (hstopped rfl hrst))
    · exact hends
  | latches => exact .inr (.inl rfl)
  | overflows => exact .inr (.inr rfl)
  | counts _ hruns hc =>
    obtain ⟨hs, -, hk⟩ | hended := hends
    · refine .inl ⟨hs, hruns, ?_⟩
      have hk' : 256 - s.cap.tcnt.toNat ≤ k + 1 := hk
      bv_omega
    · exact .inr hended
  | wraps _ _ hs => exact .inr (hends.resolve_left fun h => hs h.1)
  | _ => simp at hm

/-- The two events write nothing but U2, and there not `GPEND`. -/
theorem Effect.captureEvent_frame {s t : State} {m : Move} (h : Effect s m t) (hm : m = .tick ∨ m = .cmp) :
    t.rst = s.rst ∧ t.cap.gpend = s.cap.gpend ∧ t.responses = s.responses ∧ t.held = s.held
      ∧ t.params = s.params := by
  cases h with
  | keeps | latches | counts | overflows | wraps => exact ⟨rfl, rfl, rfl, rfl, rfl⟩
  | _ => simp at hm

/-- An admitted move keeps the account, and lowers the measure if it is a timer clock. -/
theorem Effect.terminating {s t : State} {m : Move} {k : Nat} (h : Effect s m t)
    (hadm : Admitted words m) (hs : Terminating words pend rs (k + [m].count .tick) s) :
    Terminating words pend rs k t := by
  have hopen := hs.port_open
  obtain ⟨hrst, hends, hwaiting, hanswered, hport⟩ := hs
  cases m with
  | tick | cmp =>
    have hends' := h.endsWithin (by simp) hrst hends
    obtain ⟨hr, hg, hresp, hh, hp⟩ := h.captureEvent_frame (by simp)
    exact ⟨hr.trans hrst, hends', hg ▸ hresp ▸ hwaiting, hg ▸ hresp ▸ hanswered, hh ▸ hp ▸ hport⟩
  | word w =>
    obtain ⟨hwords, hop⟩ := hadm
    obtain ⟨hpend, hheld⟩ := hport hwords
    obtain ⟨hcap, hrst', hheld'⟩ := h.admitted_word hheld hop
    have hfree : t.cap.gpend = false := hcap ▸ ((cmdReady_iff s).1 (hopen hwords)).1
    exact ⟨hrst'.trans hrst, hcap ▸ hends, fun hg => absurd (hfree.symm.trans hg) (by decide),
      fun _ hp => absurd (hpend.symm.trans hp) (by decide), fun _ => ⟨hpend, hheld'⟩⟩
  | sequencer =>
    cases h with
    | keeps => exact ⟨hrst, hends, hwaiting, hanswered, hport⟩
    | completes hpend => exact ⟨hrst, hends, nofun, fun _ _ => ⟨_, congrArg _ (hwaiting hpend).2⟩, hport⟩
  | srdy =>
    cases h with
    | keeps => exact ⟨hrst, hends, hwaiting, hanswered, hport⟩
    | copies => rw [handleSrdy_frame]; exact ⟨hrst, hends, hwaiting, hanswered, hport⟩
  | sourcePut a b => cases h <;> exact ⟨hrst, hends, hwaiting, hanswered, hport⟩
  | assertReset | releaseReset => exact hadm.elim

/-- An admitted move has a next state: where a word may come, the port is open. -/
theorem step_of_admitted {s : State} {m : Move} {k : Nat} {rest : List Move}
    (hmoves : s.moves = m :: rest) (hadm : Admitted words m) (hs : Terminating words pend rs k s) :
    ∃ t, step s = .next t := by
  rw [step_cons hmoves]
  cases m with
  | word w => exact acceptWord_completes (s := { s with moves := rest }) (hs.port_open hadm.1) w
  | _ => exact ⟨_, rfl⟩

/-- Admitted moves with enough timer clocks among them end the capture. -/
theorem run_admitted {s : State} {ms tail : List Move}
    (hmoves : s.moves = ms ++ tail) (hadm : ∀ m ∈ ms, Admitted words m)
    (hs : Terminating words pend rs (ms.count .tick) s) :
    ∃ t, core.run ms.length s = .next t ∧ t.moves = tail ∧ Terminating words pend rs 0 t := by
  induction ms generalizing s with
  | nil => exact ⟨s, rfl, hmoves, hs⟩
  | cons m ms ih =>
    have hm : Admitted words m := hadm m List.mem_cons_self
    obtain ⟨u, hstep⟩ := step_of_admitted hmoves hm hs
    have heffect := takeMove_effect ((step_cons hmoves).symm.trans hstep)
    have hcount : (m :: ms).count .tick = ms.count .tick + [m].count .tick := by
      rw [← List.singleton_append, List.count_append, Nat.add_comm]
    have hu : Terminating words pend rs (ms.count .tick) u :=
      heffect.terminating hm (hcount ▸ ⟨hs.running, hs.ends, hs.waiting, hs.answered, hs.port⟩)
    obtain ⟨t, hrun, htail, ht⟩ :=
      ih (heffect.moves_eq) (fun m' hm' => hadm m' (List.mem_cons_of_mem _ hm')) hu
    exact ⟨t, (run_of_step _ hstep).trans hrun, htail, ht⟩

/-- The sequencer's turn after the end of a capture answers a CGET that is still pending. -/
theorem sequencerTurn_of_ended {s : State} (hs : Terminating words pend rs 0 s) :
    ((sequencerTurn s).cap.cstate = .complete ∨ (sequencerTurn s).cap.cstate = .completeOverflow)
      ∧ (sequencerTurn s).cap.gpend = false
      ∧ (pend = true → ∃ v, (sequencerTurn s).responses = { status := .ok, value := v } :: rs) := by
  have hended := hs.ends.ended
  cases hg : s.cap.gpend with
  | false =>
    rw [sequencerTurn_of_disabled (.inl hg)]
    exact ⟨hended, hg, hs.answered hg⟩
  | true =>
    rw [sequencerTurn_of_enabled hg (by rcases hended with h | h <;> simp [h]) hs.running]
    exact ⟨hended, rfl, fun _ => ⟨_, congrArg _ (hs.waiting hg).2⟩⟩

end Account

/-- With the sequencer's turn next, or nothing listed, the step is that turn. -/
theorem step_sequencer_or_nil {s : State} {tail : List Move} (hmoves : s.moves = tail)
    (htail : tail = [] ∨ ∃ rest, tail = .sequencer :: rest) : step s = .next (sequencerTurn (popMove s)) := by
  rw [step_eq_takeMove, nextMove, hmoves]
  obtain rfl | ⟨rest, rfl⟩ := htail <;> rfl

/-- Settles O35: the clocks among the moves end the capture, and the sequencer's turn pays the response owed. -/
theorem captureAlwaysTerminates : Obligations.CaptureAlwaysTerminates := by
  intro s ms tail hs hruns hrst hmoves htail hms hcount
  have hadm : ∀ m ∈ ms, Admitted (∃ w, Move.word w ∈ ms) m := fun m hm => by
    obtain hevent | ⟨a, b, rfl⟩ | ⟨-, -, w, rfl, hop⟩ := hms m hm
    · simp only [List.mem_cons, List.not_mem_nil, or_false] at hevent
      obtain rfl | rfl | rfl | rfl := hevent <;> trivial
    · trivial
    · exact ⟨⟨w, hm⟩, hop⟩
  have hport : (∃ w, Move.word w ∈ ms) → s.cap.gpend = false ∧ s.held = none := fun ⟨w, hw⟩ => by
    obtain hevent | ⟨a, b, hput⟩ | ⟨hfree, hheld, -⟩ := hms _ hw
    · simp at hevent
    · cases hput
    · exact ⟨hfree, hheld⟩
  have hstart : Terminating (∃ w, Move.word w ∈ ms) s.cap.gpend s.responses (ms.count .tick) s :=
    ⟨hrst, .inl ⟨hs, BitVec.toNat_ne_iff_ne.1 hruns, hcount⟩, fun hg => ⟨hg, rfl⟩,
      fun hfree hg => absurd (hfree.symm.trans hg) (by decide),
      fun hwords => ⟨(hport hwords).1, fun w0 hw => absurd ((hport hwords).2.symm.trans hw) nofun⟩⟩
  obtain ⟨u, hrun, hrest, hend⟩ := run_admitted hmoves hadm hstart
  have hturn := step_sequencer_or_nil hrest htail
  exact ⟨_, (run_add 1 hrun).trans (run_one hturn),
    sequencerTurn_of_ended (s := popMove u) ⟨hend.running, hend.ends, hend.waiting, hend.answered, hend.port⟩⟩

end Sys2Proof.Proofs
end

section
/-! PROOF. The storage writer and the two address spaces (43_storage_writer.md R206, R207, 20_memory.md R60 to R67):
what a ready pulse moves, which steps write a space, the order of the writes, and a whole transfer. -/

namespace Sys2Proof.Proofs

open Sys2Proof.Machine Sys2Proof.Safety Sys2Proof.Laws

/-! ## Frames -/

/-- Settles O44: each case of SWRITE and SDONE writes at most U3 and the response. -/
theorem storageCommandsFrame : Obligations.StorageCommandsFrame := by
  intro i s t h hi
  have heffect := exec_next_effect h
  obtain rfl | ⟨src, dst, len, rfl⟩ := hi
  · cases h
    exact ⟨rfl, rfl, rfl, heffect.portsUnchanged, heffect.spacesUnchanged, fun _ => rfl⟩
  · have hunits : t.inv = s.inv ∧ t.cap = s.cap ∧ t.responses.tail = s.responses := by
      cases heffect <;> exact ⟨rfl, rfl, rfl⟩
    exact ⟨hunits.1, hunits.2.1, hunits.2.2, heffect.portsUnchanged, heffect.spacesUnchanged, nofun⟩

/-- Settles O49: the byte put reads back, every other one reads as before. -/
theorem hostPutsASourceByte : Obligations.HostPutsASourceByte := fun s a b _ hmoves =>
  ⟨writeByte s.srcMem a.toNat b, step_cons hmoves, readByte_writeByte_same _ _ _,
    fun _ hx => readByte_writeByte_other _ b hx⟩

/-- Only the host writes the source space. -/
theorem Effect.srcMem_eq {s t : State} {m : Move} (h : Effect s m t) (hm : ∀ a b, m ≠ .sourcePut a b) :
    t.srcMem = s.srcMem := by
  cases h with
  | puts a b => exact absurd rfl (hm a b)
  | runs _ _ hcommand => exact hcommand.spaces_eq.1
  | copies => rw [handleSrdy_frame]
  | _ => rfl

/-- Settles O48: of the steps' cases for U3 only the ready pulse writes the non-volatile space, and of the effects only
the host's writes the source space. -/
theorem onlyStorageReadyWritesTheNonVolatileSpace : Obligations.OnlyStorageReadyWritesTheNonVolatileSpace := by
  refine fun s t h => ⟨?nvm, ?source⟩
  case nvm =>
    obtain ⟨-, hlog, hnvm⟩ | ⟨-, -, -, -, -, hlog, hnvm, -⟩ | ⟨-, -, hlog, hnvm, -⟩
      | ⟨rest, hmoves, hrst, hasw, hrie, -⟩ := step_storage_cases h
    · exact .inl ⟨fun a => by rw [hnvm], hlog⟩
    · exact .inl ⟨fun a => by rw [hnvm], hlog⟩
    · exact .inl ⟨fun a => by rw [hnvm], hlog⟩
    · exact .inr ⟨by rw [hmoves]; rfl, hasw, hrie, hrst⟩
  case source =>
    by_cases hput : ∃ a b, nextMove s = .sourcePut a b
    · obtain ⟨a, b, hm⟩ := hput
      exact .inr ⟨a, b, by rw [moves_of_nextMove hm nofun]; rfl⟩
    · have hsame := (step_effect h).srcMem_eq fun a b hm => hput ⟨a, b, hm⟩
      exact .inl fun a => by rw [hsame]; rfl

/-! ## One ready pulse (R206) -/

/-- A ready pulse while `rst` is released is handled. -/
theorem step_srdy {s : State} {rest : List Move} (hmoves : s.moves = .srdy :: rest) (hrst : s.rst = false) :
    step s = .next (handleSrdy { s with moves := rest }) := by
  rw [step_cons hmoves, takeMove, unlessReset_of_running]
  exact hrst

/-- A ready pulse while the interrupt is disabled is dropped. -/
theorem handleSrdy_of_disabled {s : State} (h : s.asw.rie = false ∨ s.params.hasAsw = false) : handleSrdy s = s := by
  obtain ⟨-, hkeeps⟩ | ⟨hasw, hrie, -⟩ := handleSrdy_cases s
  · exact hkeeps
  · simp [hasw, hrie] at h

/-- Settles O45: one write at the addresses of the next byte, in numbers. -/
theorem storageReadyMovesOneByte : Obligations.StorageReadyMovesOneByte := by
  intro s rest hmoves hrst
  refine ⟨fun hasw hrie hlow hhigh a d b ha hd hb => ?enabled, fun h => ?disabled⟩
  case enabled =>
    obtain ⟨u3, hmove, hrem, hsrc, hdst, hlen, hlast, hmore⟩ :=
      handleSrdy_moves_one_byte (s := { s with moves := rest }) hasw hrie hlow hhigh
    have hd' : (transferDst s.asw).toNat = d := (transferDst_toNat hhigh).trans hd.symm
    have hoff : transferDst s.asw = BitVec.ofNat 16 d := by rw [← hd', BitVec.ofNat_toNat, BitVec.setWidth_eq]
    have hb' : sourceByte { s with moves := rest } (s.asw.len.toNat - s.asw.rem.toNat) = b := by
      rw [hb, ha]; rfl
    dsimp only at hmove
    rw [hb', hd', hoff] at hmove
    exact ⟨_, (step_srdy hmoves hrst).trans (congrArg _ hmove), readByte_writeByte_same _ d b,
      fun x hx => readByte_writeByte_other _ b hx, rfl, hrem, hsrc, hdst, hlen, fun h => (hlast h).symm,
      fun h => (hmore h).symm, rfl, rfl, rfl, rfl, rfl, rfl, rfl, rfl, rfl⟩
  case disabled => exact (step_srdy hmoves hrst).trans (congrArg _ (handleSrdy_of_disabled h))

/-! ## The order of the writes (20_memory.md R67) -/

/-- A state with no transfer in flight meets the order of writes. -/
theorem transferInv_of_free {s : State} (hfree : s.asw.busy = false) : TransferInv s :=
  ⟨fun h => absurd (hfree.symm.trans h) (by decide), fun h => absurd (hfree.symm.trans h) (by decide)⟩

/-- A ready pulse starts no transfer. -/
theorem handleSrdy_busy_of_free {s : State} (hfree : s.asw.busy = false) : (handleSrdy s).asw.busy = false := by
  obtain ⟨-, e⟩ | ⟨-, -, ⟨-, e⟩ | ⟨-, e⟩⟩ := handleSrdy_cases s <;> rw [e]
  · exact hfree
  · exact hfree

/-- A ready pulse writes the next byte in order. -/
theorem transferInv_handleSrdy {s : State} (hinv : TransferInv s) (hasw : s.params.hasAsw = true)
    (hrie : s.asw.rie = true) : TransferInv (handleSrdy s) := by
  cases hbusy : s.asw.busy with
  | false => exact transferInv_of_free (handleSrdy_busy_of_free hbusy)
  | true =>
    obtain ⟨hlow, hhigh⟩ := hinv.remaining hbusy
    obtain ⟨u3, hmove, hrem, -, hdst, hlen, hlast, -⟩ := handleSrdy_moves_one_byte hasw hrie hlow hhigh
    rw [hmove]
    by_cases h1 : s.asw.rem.toNat = 1
    · exact transferInv_of_free (hlast h1).1
    · have hindex : u3.len.toNat - u3.rem.toNat = s.asw.len.toNat - s.asw.rem.toNat + 1 := by
        rw [hlen, hrem]; omega
      refine ⟨fun _ => ?_, fun _ => ?_⟩
      · show 1 ≤ u3.rem.toNat ∧ u3.rem.toNat ≤ u3.len.toNat
        rw [hlen, hrem]
        omega
      · show List.map _ (List.take (u3.len.toNat - u3.rem.toNat) (_ :: s.nvmLog)) = _
        rw [hindex, List.take_succ_cons, List.map_cons, hinv.written hbusy, transferDst_toNat hhigh, List.range_succ,
          List.map_append, List.reverse_append, hdst]
        rfl

/-- Settles O47: a step leaves the transfer, starts one with nothing written, ends it, or writes its next byte. -/
theorem everyStepKeepsTheOrderOfWrites : Obligations.EveryStepKeepsTheOrderOfWrites := by
  intro s t hinv hstep
  obtain ⟨hu3, hlog, -⟩ | ⟨src, dst, len, -, hne, -, -, hu3⟩ | ⟨hbusy, -⟩ | ⟨rest, -, -, hasw, hrie, rfl⟩ :=
    step_storage_cases hstep
  · exact ⟨hu3 ▸ hinv.remaining, hu3 ▸ hlog ▸ hinv.written⟩
  · have hpos : len.toNat ≠ 0 := BitVec.toNat_ne_iff_ne.2 hne
    constructor
    · rw [hu3]
      exact fun _ => ⟨Nat.one_le_iff_ne_zero.2 hpos, le_rfl⟩
    · rw [hu3, Nat.sub_self]
      exact fun _ => rfl
  · exact transferInv_of_free hbusy
  · exact transferInv_handleSrdy (s := { s with moves := rest }) ⟨hinv.remaining, hinv.written⟩ hasw hrie

end Sys2Proof.Proofs
end

section
/-! PROOF. A whole transfer (43_storage_writer.md R207): what each move of a run does to a transfer in flight, and what
the transfer has done at its end, told from any byte on. -/

namespace Sys2Proof.Proofs

open Sys2Proof.Machine Sys2Proof.Safety Sys2Proof.Laws

/-- Without a command word among the moves a run completes. -/
theorem run_completes {s : State} {ms rest : List Move} (hmoves : s.moves = ms ++ rest)
    (hwords : ∀ w, Move.word w ∉ ms) : ∃ t, core.run ms.length s = .next t := by
  induction ms generalizing s with
  | nil => exact ⟨s, rfl⟩
  | cons m ms ih =>
    have hm : ∀ w, nextMove s ≠ .word w := fun w h =>
      hwords w (((nextMove_of_cons hmoves).symm.trans h) ▸ List.mem_cons_self)
    obtain ⟨u, hstep⟩ := step_completes hm
    have hrest : u.moves = ms ++ rest := by rw [step_moves hstep, hmoves]; rfl
    obtain ⟨t, hrun⟩ := ih hrest fun w hw => hwords w (List.mem_cons_of_mem _ hw)
    exact ⟨t, (run_of_step _ hstep).trans hrun⟩

/-! ## The addresses of a transfer (20_memory.md R64) -/

/-- A transfer of at most 255 bytes writes no address twice. -/
theorem byteAddr_injective {base : Half} {i j : Nat} (hi : i < 256) (hj : j < 256)
    (h : byteAddr base i = byteAddr base j) : i = j := by
  have := base.isLt
  simp only [byteAddr] at h
  omega

/-! ## A transfer in flight -/

/-- A transfer in flight, with bytes left (10_state.md R32, 43_storage_writer.md R207). -/
structure InFlight (s : State) : Prop where
  present : s.params.hasAsw = true
  running : s.rst = false
  busy : s.asw.busy = true
  enabled : s.asw.rie = true
  remaining : 1 ≤ s.asw.rem.toNat
  within : s.asw.rem.toNat ≤ s.asw.len.toNat

/-- The index of the next byte, `LEN - REM` (R206). -/
def nextByte (s : State) : Nat := s.asw.len.toNat - s.asw.rem.toNat

/-- The byte that `NVM` holds in `t` for byte `i` of a transfer to `dst`. -/
def readBack (t : State) (dst : Half) (i : Nat) : Byte := (readByte t.nvm (byteAddr dst i)).getD 0

/-- The write of byte `i` of a transfer to `dst`, with the byte that `NVM` holds in `t`. -/
def writeOf (t : State) (dst : Half) (i : Nat) : NvmWrite :=
  { off := BitVec.ofNat 16 (byteAddr dst i), byte := readBack t dst i }

/-- From `s` to `t` exactly the bytes left of the transfer of `s` have been written, in order. -/
structure Copied (s t : State) : Prop where
  log : t.nvmLog = ((List.range' (nextByte s) s.asw.rem.toNat).map (writeOf t s.asw.dst)).reverse ++ s.nvmLog
  written : ∀ i, nextByte s ≤ i → i < s.asw.len.toNat →
    readByte t.nvm (byteAddr s.asw.dst i) = some (readBack t s.asw.dst i)
  others : ∀ x, (∀ i, nextByte s ≤ i → i < s.asw.len.toNat → x ≠ byteAddr s.asw.dst i) →
    readByte t.nvm x = readByte s.nvm x

/-- With no byte left nothing is left to write. -/
theorem copied_self {s : State} (hrem : s.asw.rem.toNat = 0) : Copied s s := by
  have hindex : nextByte s = s.asw.len.toNat := by rw [nextByte, hrem, Nat.sub_zero]
  exact ⟨by rw [hrem]; rfl, fun i hi hlt => by omega, fun _ _ => rfl⟩

/-- What a move `m` makes of a transfer in flight. -/
structure Progress (s u : State) (m : Move) : Prop where
  dst_eq : u.asw.dst = s.asw.dst
  len_eq : u.asw.len = s.asw.len
  rem_eq : u.asw.rem.toNat + [m].count .srdy = s.asw.rem.toNat
  goesOn : u.asw.rem.toNat ≠ 0 → InFlight u
  ends : u.asw.rem.toNat = 0 → u.asw.busy = false ∧ u.asw.rie = false
  copied : ∀ t, Copied u t → Copied s t
  moved : ∀ t, Copied u t → m = .srdy → readBack t s.asw.dst (nextByte s) = sourceByte s (nextByte s)

/-- A move other than a ready pulse or the assertion of `rst` leaves the transfer and `NVM`. -/
theorem Effect.transfer_eq {s u : State} {m : Move} (h : Effect s m u) (hs : InFlight s) (hm : m ≠ .srdy)
    (hreset : m ≠ .assertReset) :
    u.asw = s.asw ∧ u.nvm = s.nvm ∧ u.nvmLog = s.nvmLog ∧ u.params = s.params ∧ u.rst = s.rst := by
  cases h with
  | runs _ _ hcommand =>
    cases hcommand with
    | records _ _ hfree => exact absurd (hfree.symm.trans hs.busy) (by decide)
    | _ => exact ⟨rfl, rfl, rfl, rfl, rfl⟩
  | copies => exact absurd rfl hm
  | asserts => exact absurd rfl hreset
  | releases hrst => exact absurd (hrst.symm.trans hs.running) (by decide)
  | _ => exact ⟨rfl, rfl, rfl, rfl, rfl⟩

theorem Effect.progress {s u : State} {m : Move} (h : Effect s m u) (hs : InFlight s) (hm : m ≠ .srdy)
    (hreset : m ≠ .assertReset) : Progress s u m := by
  obtain ⟨hu3, hnvm, hlog, hparams, hrst⟩ := h.transfer_eq hs hm hreset
  have hindex : nextByte u = nextByte s := by rw [nextByte, hu3, nextByte]
  refine ⟨congrArg _ hu3, congrArg _ hu3, by simp [hu3, hm], fun _ => ?_, fun hzero => ?_, fun t ht => ?_,
    fun _ _ h => absurd h hm⟩
  · exact ⟨hparams ▸ hs.present, hrst ▸ hs.running, hu3 ▸ hs.busy, hu3 ▸ hs.enabled, hu3 ▸ hs.remaining,
      hu3 ▸ hs.within⟩
  · have := hs.remaining
    rw [hu3] at hzero
    omega
  · obtain ⟨hl, hw, ho⟩ := ht
    rw [hindex, hu3] at hl hw ho
    exact ⟨hlog ▸ hl, hw, hnvm ▸ ho⟩

/-- The write of the next byte `b` comes before those of the bytes after it, which do not write it again. -/
theorem copied_of_byte {s u t : State} {b : Byte} (hs : InFlight s) (hdst : u.asw.dst = s.asw.dst)
    (hlen : u.asw.len = s.asw.len) (hrem : u.asw.rem.toNat + 1 = s.asw.rem.toNat)
    (hnvm : u.nvm = writeByte s.nvm (byteAddr s.asw.dst (nextByte s)) b)
    (hlog : u.nvmLog = { off := BitVec.ofNat 16 (byteAddr s.asw.dst (nextByte s)), byte := b } :: s.nvmLog)
    (ht : Copied u t) : Copied s t ∧ readBack t s.asw.dst (nextByte s) = b := by
  have hlt := s.asw.len.isLt
  have hwithin := hs.within
  have hnext : nextByte s < s.asw.len.toNat := by rw [nextByte]; omega
  have hindex : nextByte u = nextByte s + 1 := by rw [nextByte, nextByte, hlen]; omega
  obtain ⟨htlog, htwritten, htothers⟩ := ht
  rw [hindex, hdst] at htlog
  rw [hindex, hdst, hlen] at htwritten htothers
  have hread : readByte t.nvm (byteAddr s.asw.dst (nextByte s)) = some b := by
    rw [htothers _ fun i hi hi' h => ?_, hnvm, readByte_writeByte_same]
    have := byteAddr_injective (by omega) (by omega) h
    omega
  have hback : readBack t s.asw.dst (nextByte s) = b := by rw [readBack, hread]; rfl
  refine ⟨⟨?log, fun i hi hi' => ?written, fun x hx => ?others⟩, hback⟩
  case log =>
    rw [htlog, hlog, ← hrem, List.range'_succ, List.map_cons, List.reverse_cons, List.append_assoc, writeOf, hback]
    rfl
  case written =>
    obtain rfl | hafter := Nat.eq_or_lt_of_le hi
    · rw [hread, hback]
    · exact htwritten i hafter hi'
  case others =>
    rw [htothers x fun i hi hi' => hx i (by omega) hi', hnvm]
    exact readByte_writeByte_other _ b (hx _ le_rfl hnext)

/-- A ready pulse writes the next byte. -/
theorem handleSrdy_progress {s : State} (hs : InFlight s) : Progress s (handleSrdy s) .srdy := by
  have hlow := hs.remaining
  have hhigh := hs.within
  obtain ⟨u3, hmove, hrem, -, hdst, hlen, hlast, hmore⟩ :=
    handleSrdy_moves_one_byte hs.present hs.enabled hlow hhigh
  have hoff : transferDst s.asw = BitVec.ofNat 16 (byteAddr s.asw.dst (nextByte s)) := by
    rw [nextByte, ← transferDst_toNat hhigh, BitVec.ofNat_toNat, BitVec.setWidth_eq]
  rw [transferDst_toNat hhigh, hoff] at hmove
  have hcopied (t : State) := copied_of_byte (t := t) (u := handleSrdy s) hs (hmove ▸ hdst) (hmove ▸ hlen)
    (by rw [hmove]; show u3.rem.toNat + 1 = _; omega) (by rw [hmove]; rfl) (by rw [hmove])
  refine ⟨hmove ▸ hdst, hmove ▸ hlen, ?_, fun hne => ?_, fun hzero => ?_, fun t ht => (hcopied t ht).1,
    fun t ht _ => (hcopied t ht).2⟩
  · rw [hmove]
    show u3.rem.toNat + 1 = _
    omega
  · rw [hmove] at hne ⊢
    obtain ⟨hbusy, hrie⟩ := hmore fun h => hne (by show u3.rem.toNat = 0; omega)
    exact ⟨hs.present, hs.running, hbusy.trans hs.busy, hrie.trans hs.enabled, Nat.one_le_iff_ne_zero.2 hne,
      by show u3.rem.toNat ≤ u3.len.toNat; rw [hlen]; omega⟩
  · rw [hmove] at hzero ⊢
    exact hlast (by have : u3.rem.toNat = 0 := hzero; omega)

/-- Every move but the assertion of `rst` goes on with the transfer. -/
theorem step_progress {s u : State} {m : Move} {rest : List Move} (hs : InFlight s) (hmoves : s.moves = m :: rest)
    (hreset : m ≠ .assertReset) (hstep : step s = .next u) : Progress s u m := by
  have hs' : InFlight { s with moves := rest } :=
    ⟨hs.present, hs.running, hs.busy, hs.enabled, hs.remaining, hs.within⟩
  have hprogress : Progress { s with moves := rest } u m := by
    by_cases hm : m = .srdy
    · subst hm
      obtain rfl := Host.Outcome.next.inj ((step_srdy hmoves hs.running).symm.trans hstep)
      exact handleSrdy_progress hs'
    · rw [step_cons hmoves] at hstep
      exact (takeMove_effect hstep).progress hs' hm hreset
  obtain ⟨hdst, hlen, hrem, hgoes, hends, hcopied, hmoved⟩ := hprogress
  exact ⟨hdst, hlen, hrem, hgoes, hends, fun t ht => let ⟨hl, hw, ho⟩ := hcopied t ht; ⟨hl, hw, ho⟩, hmoved⟩

/-! ## The whole run (R207) -/

/-- What a run that moves the bytes left has done at its end `t`: each byte is that of the source at its own step. -/
theorem run_transfer {s t : State} {ms rest : List Move} (hs : InFlight s) (hmoves : s.moves = ms ++ .srdy :: rest)
    (hcount : ms.count .srdy + 1 = s.asw.rem.toNat) (hreset : Move.assertReset ∉ ms)
    (hrun : core.run (ms.length + 1) s = .next t) :
    Copied s t ∧ t.asw.busy = false ∧ t.asw.rie = false ∧ t.asw.rem.toNat = 0 ∧ t.moves = rest
      ∧ ∀ k, k ≤ ms.length → ∃ u, core.run k s = .next u ∧ u.asw.busy = true
        ∧ ((ms ++ [Move.srdy])[k]? = some .srdy →
          readBack t s.asw.dst (nextByte s + (ms.take k).count .srdy)
            = sourceByte u (nextByte s + (ms.take k).count .srdy)) := by
  induction ms generalizing s with
  | nil =>
    obtain ⟨u, hstep, hrun⟩ := step_of_run hrun
    obtain rfl := Host.Outcome.next.inj hrun
    have hprogress := step_progress hs hmoves nofun hstep
    have hzero : u.asw.rem.toNat = 0 := by
      have : u.asw.rem.toNat + 1 = s.asw.rem.toNat := hprogress.rem_eq
      have : 0 + 1 = s.asw.rem.toNat := hcount
      omega
    obtain ⟨hbusy, hrie⟩ := hprogress.ends hzero
    refine ⟨hprogress.copied u (copied_self hzero), hbusy, hrie, hzero, by rw [step_moves hstep, hmoves]; rfl,
      fun k hk => ?_⟩
    obtain rfl := Nat.le_zero.1 hk
    exact ⟨s, rfl, hs.busy, fun _ => hprogress.moved u (copied_self hzero) rfl⟩
  | cons m ms ih =>
    obtain ⟨u, hstep, hrun⟩ := step_of_run hrun
    have hsplit : (m :: ms).count .srdy = ms.count .srdy + [m].count .srdy := by
      rw [← List.singleton_append, List.count_append, Nat.add_comm]
    have hprogress := step_progress hs hmoves (fun h => hreset (h ▸ List.mem_cons_self)) hstep
    have hrem := hprogress.rem_eq
    have hu : InFlight u := hprogress.goesOn (by omega)
    obtain ⟨hcopied, hbusy, hrie, hzero, hrest, htrace⟩ :=
      ih hu (by rw [step_moves hstep, hmoves]; rfl) (by omega) (fun h => hreset (List.mem_cons_of_mem _ h)) hrun
    refine ⟨hprogress.copied t hcopied, hbusy, hrie, hzero, hrest, fun k hk => ?_⟩
    cases k with
    | zero =>
      refine ⟨s, rfl, hs.busy, fun hfirst => ?_⟩
      exact hprogress.moved t hcopied (Option.some.inj hfirst)
    | succ k =>
      obtain ⟨v, hv, hvbusy, hvbyte⟩ := htrace k (Nat.le_of_succ_le_succ hk)
      have hindex : nextByte u + (ms.take k).count .srdy = nextByte s + ((m :: ms).take (k + 1)).count .srdy := by
        have hwithin := hs.within
        rw [List.take_succ_cons, ← List.singleton_append, List.count_append, nextByte, nextByte, hprogress.len_eq]
        omega
      rw [hindex, hprogress.dst_eq] at hvbyte
      exact ⟨v, (run_of_step k hstep).trans hv, hvbusy, hvbyte⟩

/-- Settles O46: the run of the transfer from its first byte on. -/
theorem transferCompletesInItsLength : Obligations.TransferCompletesInItsLength := by
  intro s ms rest hasw hrst hbusy hrie hlen hrem hmoves hcount hreset
  refine ⟨fun hwords => ?completes, fun t hrun => ?done⟩
  case completes =>
    have hsplit : s.moves = (ms ++ [.srdy]) ++ rest := by rw [hmoves, List.append_assoc]; rfl
    obtain ⟨t, hrun⟩ := run_completes hsplit fun w hw => by simp [hwords w] at hw
    exact ⟨t, by rwa [List.length_append] at hrun⟩
  case done =>
    have hs : InFlight s := ⟨hasw, hrst, hbusy, hrie, hrem ▸ hlen, by rw [hrem]⟩
    have hindex : nextByte s = 0 := by rw [nextByte, hrem, Nat.sub_self]
    obtain ⟨⟨hlog, hwritten, hothers⟩, hfree, hoff, hzero, hrest, htrace⟩ :=
      run_transfer hs hmoves (hrem ▸ hcount) hreset hrun
    rw [hindex] at hlog hwritten hothers htrace
    refine ⟨hfree, hoff, hzero, hrest, fun x hx => hothers x fun i _ => hx i, readBack t s.asw.dst,
      fun i hi => hwritten i i.zero_le hi, ?_, ?_⟩
    · rw [hlog, hrem, List.range_eq_range']
      rfl
    · simp only [Nat.zero_add] at htrace
      exact htrace

end Sys2Proof.Proofs
end

section
/-! PROOF. Reset and the invariant of the machine (10_state.md R32, R35, 42_capture.md R161, R181, 20_memory.md R62,
70_reset_and_hazards.md R260, R262, 44_host.md R225): each clause of the invariant holds after reset and is kept by
every effect, and a run that is over stays over. -/

namespace Sys2Proof.Proofs

open Sys2Proof.Machine Sys2Proof.Safety Sys2Proof.Laws

/-! ## Reset -/

/-- `PRESC_INIT` in numbers: it lies in 1 to 15 (00_scope.md R5). -/
theorem prescInit_toNat (p : Params) : p.prescInit.toNat = p.prescStart.val + 1 := by
  have := p.prescStart.isLt
  rw [Params.prescInit, BitVec.toNat_ofNat]
  omega

/-- Settles O50: the fields of the state after reset. -/
theorem resetValues : Obligations.ResetValues := by
  refine ⟨?fields, rfl, ?_, ?_, rfl⟩
  case fields =>
    rintro p u s rfl
    exact ⟨rfl, prescInit_toNat p, rfl, rfl, rfl, rfl, rfl, rfl, rfl, rfl, rfl, rfl, rfl, rfl, rfl, rfl, rfl, rfl⟩
  all_goals
    have hpresc : State.reset.cap.presc.toNat = Config.params.prescStart.val + 1 := prescInit_toNat Config.params
    have := Config.params.prescStart.isLt
    omega

/-- Settles O51: the fields of a reset state, and what reset leaves. -/
theorem resetAbandonsWhatIsInProgress : Obligations.ResetAbandonsWhatIsInProgress := fun s rest hmoves =>
  ⟨hardwareReset true { s with moves := rest }, step_cons hmoves, rfl, rfl, rfl, rfl, rfl, rfl, rfl, rfl,
    spacesUnchanged_of_eq rfl rfl⟩

/-- A step that asserts or releases `rst` resets the registers. -/
theorem step_reset {s : State} {m : Move} {rest : List Move} (hmoves : s.moves = m :: rest)
    (hm : m = .assertReset ∨ (m = .releaseReset ∧ s.rst = true)) :
    step s = .next (hardwareReset (if m = .assertReset then true else false) { s with moves := rest }) := by
  rw [step_cons hmoves]
  obtain rfl | ⟨rfl, hrst⟩ := hm
  · rfl
  · exact congrArg _ (if_pos hrst)

/-- The output signals in reset (70_reset_and_hazards.md R260). -/
theorem outputs_hardwareReset (level : Bool) (s : State) :
    cmpEdgeSelOut (hardwareReset level s) = false ∧ tmrRunOut (hardwareReset level s) = false
      ∧ nvmRieOut (hardwareReset level s) = false ∧ cmdReady (hardwareReset level s) = !level :=
  ⟨rfl, rfl, Bool.and_false _, rfl⟩

/-- While `rst` is asserted the events and the sequencer's turn are dropped. -/
theorem takeMove_of_reset {s : State} {m : Move} (hrst : s.rst = true)
    (hm : m ∈ [Move.cmp, Move.tick, Move.srdy, Move.sequencer]) : takeMove m s = .next s := by
  simp only [List.mem_cons, List.not_mem_nil, or_false] at hm
  obtain rfl | rfl | rfl | rfl := hm
  · exact congrArg _ (unlessReset_of_reset hrst)
  · exact congrArg _ (unlessReset_of_reset hrst)
  · exact congrArg _ (unlessReset_of_reset hrst)
  · obtain ⟨-, -, hrun, -⟩ | ⟨-, hkeeps⟩ := sequencerTurn_cases s
    · exact absurd (hrun.symm.trans hrst) (by decide)
    · exact congrArg _ hkeeps

/-- Settles O52: both changes of `rst` reset the registers; while it is asserted the handlers are kept from running, the
sequencer's step is not enabled and the port is closed. -/
theorem resetHoldsTheBlock : Obligations.ResetHoldsTheBlock := by
  refine ⟨fun s m rest hmoves hm => ?changes, fun s m rest hrst hmoves => ⟨fun hevent => ?dropped, fun w hw => ?closed⟩⟩
  case changes =>
    obtain ⟨hedge, hrun, hrie, hready⟩ :=
      outputs_hardwareReset (if m = .assertReset then true else false) { s with moves := rest }
    refine ⟨_, step_reset hmoves hm, rfl, rfl, rfl, rfl, prescInit_toNat s.params, rfl, rfl, rfl, rfl, rfl, rfl, rfl,
      rfl, rfl, rfl, rfl, spacesUnchanged_of_eq rfl rfl, rfl, rfl, hedge, rfl, hrun, rfl, rfl, hrie, hready.trans ?_⟩
    split <;> rfl
  case dropped =>
    rw [step_cons hmoves]
    exact takeMove_of_reset (s := { s with moves := rest }) hrst hevent
  case closed => exact closedPortTakesNoWord s w rest (.inr hrst) (hw ▸ hmoves)

/-! ## The capture unit (R161, R181) -/

theorem captureInv_afterReset (p : Params) (u : Unspecified) : CaptureInv (CaptureRegs.afterReset p u) where
  timer := iff_of_false (fun h => h rfl) nofun
  armed := nofun
  pending := nofun
  range := by
    have := p.prescStart.isLt
    rw [captureAfterReset_presc, prescInit_toNat]
    omega
  overflow := nofun

theorem readyInv_afterReset (p : Params) (u : Unspecified) : ReadyInv (CaptureRegs.afterReset p u) :=
  ⟨nofun, nofun, nofun⟩

/-- A prescaler in 1 to 15 starts the timer. -/
theorem presc_ne_zero {c : CaptureRegs} (h : CaptureInv c) : c.presc ≠ 0 :=
  BitVec.toNat_ne_iff_ne.1 (Nat.one_le_iff_ne_zero.1 h.range.1)

/-- The commands keep R181 where the port is open, so that no CGET is pending. -/
theorem CommandEffect.captureInv {s t : State} {i : Instr} (h : CommandEffect s i t) (hs : CaptureInv s.cap)
    (hfree : s.cap.gpend = false) : CaptureInv t.cap := by
  have hnone {P : Prop} (hg : s.cap.gpend = true) : P := absurd (hfree.symm.trans hg) (by decide)
  cases h with
  | precharges => exact ⟨iff_of_false (fun h => h rfl) nofun, nofun, fun hg => hnone hg, hs.range, nofun⟩
  | starts hp => exact ⟨iff_of_true hp rfl, fun _ => ⟨rfl, rfl⟩, fun hg => hnone hg, hs.range, nofun⟩
  | issues =>
    exact ⟨iff_of_true (presc_ne_zero hs) rfl, fun _ => ⟨rfl, rfl⟩, fun _ => ⟨.inl rfl, rfl⟩, hs.range, nofun⟩
  | _ => exact hs

/-- Every effect keeps R181. -/
theorem Effect.captureInv {s t : State} {m : Move} (h : Effect s m t) (hs : CaptureInv s.cap) :
    CaptureInv t.cap := by
  cases h with
  | runs hopen _ hcommand => exact hcommand.captureInv hs ((cmdReady_iff s).1 hopen).1
  | completes hpend => exact ⟨hs.timer, hs.armed, nofun, (autoRange_step hs hpend).2, hs.overflow⟩
  | latches =>
    exact ⟨iff_of_false (fun h => h rfl) nofun, nofun, fun hg => ⟨.inr (.inl rfl), (hs.pending hg).2⟩, hs.range,
      nofun⟩
  | overflows =>
    exact ⟨iff_of_false (fun h => h rfl) nofun, nofun, fun hg => ⟨.inr (.inr rfl), (hs.pending hg).2⟩, hs.range,
      fun _ => rfl⟩
  | counts | wraps => exact ⟨hs.timer, hs.armed, hs.pending, hs.range, hs.overflow⟩
  | copies => rw [handleSrdy_frame]; exact hs
  | asserts | releases => exact captureInv_afterReset _ _
  | _ => exact hs

theorem CommandEffect.readyInv {s t : State} {i : Instr} (h : CommandEffect s i t) (hs : ReadyInv s.cap) :
    ReadyInv t.cap := by
  cases h with
  | precharges => exact ⟨fun _ => rfl, fun _ => rfl, fun _ => rfl⟩
  | starts | issues => exact ⟨nofun, nofun, nofun⟩
  | _ => exact hs

/-- What CRESET leaves stays until a start: the timer is stopped, so the count stays zero. -/
theorem Effect.readyInv {s t : State} {m : Move} (h : Effect s m t) (hcap : CaptureInv s.cap)
    (hs : ReadyInv s.cap) : ReadyInv t.cap := by
  cases h with
  | runs _ _ hcommand => exact hcommand.readyInv hs
  | completes => exact ⟨hs.cleared, hs.driven, hs.disarmed⟩
  | latches | overflows => exact ⟨nofun, nofun, nofun⟩
  | counts _ hruns =>
    have hready {P : Prop} (hr : s.cap.cstate = .ready) : P :=
      absurd ((hcap.timer.1 hruns).symm.trans hr) (by decide)
    exact ⟨fun hr => hready hr, fun hr => hready hr, fun hr => hready hr⟩
  | wraps _ hruns hs' => exact absurd (hcap.timer.1 hruns) hs'
  | copies => rw [handleSrdy_frame]; exact hs
  | asserts | releases => exact readyInv_afterReset _ _
  | _ => exact hs

/-! ## The storage writer (10_state.md R32, 43_storage_writer.md R207) -/

theorem storageInv_of_free {hasAsw : Bool} {a : StorageRegs} (hbusy : a.busy = false) (hrie : a.rie = false) :
    StorageInv hasAsw a :=
  ⟨hbusy.trans hrie.symm, fun h => absurd (hbusy.symm.trans h) (by decide),
    fun h => absurd (hbusy.symm.trans h) (by decide)⟩

/-- What is decoded is a command of the block. -/
theorem decode_wellFormed {hasAsw : Bool} {ws rest : List Word32} {i : Instr} (h : decode hasAsw ws = .ok i rest) :
    wellFormed hasAsw i = true := by
  cases ws with
  | nil => cases h
  | cons w tail => exact (commandLengthFromFirstWord hasAsw w tail i rest h).1

/-- A command that exists in the block keeps R32: SWRITE records a length that is not 0. -/
theorem CommandEffect.storageInv {s t : State} {i : Instr} (h : CommandEffect s i t)
    (hwf : wellFormed s.params.hasAsw i = true) (hs : StorageInv s.params.hasAsw s.asw) :
    StorageInv t.params.hasAsw t.asw := by
  cases h with
  | records src dst hfree hlen =>
    have hpos := Nat.one_le_iff_ne_zero.2 (BitVec.toNat_ne_iff_ne.2 hlen)
    exact ⟨rfl, fun _ => ⟨hpos, le_rfl⟩, fun _ => hwf⟩
  | _ => exact hs

/-- A ready pulse keeps R32: `REM` counts down to the end of the transfer. -/
theorem storageInv_handleSrdy {s : State} (hasw : s.params.hasAsw = true) (hrie : s.asw.rie = true)
    (hs : StorageInv s.params.hasAsw s.asw) :
    StorageInv (handleSrdy s).params.hasAsw (handleSrdy s).asw := by
  obtain ⟨hlow, hhigh⟩ := hs.remaining (hs.enabled.trans hrie)
  obtain ⟨u3, hmove, hrem, -, -, hlen, hlast, hmore⟩ := handleSrdy_moves_one_byte hasw hrie hlow hhigh
  rw [hmove]
  by_cases h1 : s.asw.rem.toNat = 1
  · exact storageInv_of_free (hlast h1).1 (hlast h1).2
  · obtain ⟨hbusy, hrie'⟩ := hmore h1
    refine ⟨hbusy.trans (hs.enabled.trans hrie'.symm), fun _ => ?_, fun _ => hasw⟩
    show 1 ≤ u3.rem.toNat ∧ u3.rem.toNat ≤ u3.len.toNat
    rw [hrem, hlen]
    omega

theorem Effect.storageInv {s t : State} {m : Move} (h : Effect s m t) (hs : StorageInv s.params.hasAsw s.asw) :
    StorageInv t.params.hasAsw t.asw := by
  cases h with
  | runs _ hdecode hcommand => exact hcommand.storageInv (decode_wellFormed hdecode) hs
  | copies _ hasw hrie => exact storageInv_handleSrdy hasw hrie hs
  | asserts | releases => exact storageInv_of_free rfl rfl
  | _ => exact hs

/-! ## The port and the block in reset (30_encoding.md R82, 70_reset_and_hazards.md R260) -/

theorem portInv_of_none {s : State} (h : s.held = none) : PortInv s := fun w hw => by rw [h] at hw; cases hw

/-- Only word 0 of a two-word command is held, and the port stays open until word 1 comes. -/
theorem Effect.portInv {s t : State} {m : Move} (h : Effect s m t) (hs : PortInv s) : PortInv t := by
  cases h with
  | holds hopen _ hlen => exact fun w hw => by cases hw; exact ⟨hlen, hopen⟩
  | rejects => exact portInv_of_none rfl
  | runs _ _ hcommand => exact portInv_of_none hcommand.held_eq
  | completes hpend =>
    exact fun w hw => absurd (hpend.symm.trans ((cmdReady_iff s).1 (hs w hw).2).1) (by decide)
  | copies => rw [handleSrdy_frame]; exact hs
  | asserts | releases => exact portInv_of_none rfl
  | _ => exact hs

theorem resetInv_of_running {s : State} (hrst : s.rst = false) : ResetInv s := fun h =>
  absurd (hrst.symm.trans h) (by decide)

/-- While `rst` is asserted only the host's byte and `rst` itself have an effect. -/
theorem Effect.resetInv {s t : State} {m : Move} (h : Effect s m t) (hs : ResetInv s) : ResetInv t := by
  cases h with
  | keeps | puts => exact hs
  | holds hopen => exact resetInv_of_running ((cmdReady_iff s).1 hopen).2
  | rejects _ hopen => exact resetInv_of_running ((cmdReady_iff s).1 hopen).2
  | runs hopen _ hcommand => exact resetInv_of_running (hcommand.rst_eq.trans ((cmdReady_iff s).1 hopen).2)
  | completes _ _ hrst | latches hrst | counts hrst | overflows hrst | wraps hrst => exact resetInv_of_running hrst
  | copies hrst => rw [handleSrdy_frame]; exact resetInv_of_running hrst
  | asserts => exact fun _ => ⟨rfl, rfl, rfl, rfl, rfl, rfl, rfl, rfl, rfl, rfl, rfl, rfl, rfl⟩
  | releases => exact resetInv_of_running rfl

/-! ## The spaces (20_memory.md R60 to R62) -/

/-- An effect leaves the non-volatile space and its record, or adds one write to both. -/
theorem Effect.nvm_cases {s t : State} {m : Move} (h : Effect s m t) :
    (t.nvm = s.nvm ∧ t.nvmLog = s.nvmLog)
      ∨ ∃ (off : Half) (b : Byte), t.nvm = writeByte s.nvm off.toNat b
        ∧ t.nvmLog = { off := off, byte := b } :: s.nvmLog := by
  cases h with
  | runs _ _ hcommand => exact .inl hcommand.spaces_eq.2
  | copies =>
    obtain ⟨-, e⟩ | ⟨-, -, ⟨-, e⟩ | ⟨-, e⟩⟩ := handleSrdy_cases s <;> rw [e]
    · exact .inl ⟨rfl, rfl⟩
    · exact .inr ⟨_, _, rfl, rfl⟩
    · exact .inr ⟨_, _, rfl, rfl⟩
  | _ => exact .inl ⟨rfl, rfl⟩

/-- An effect leaves the source space or puts one byte there. -/
theorem Effect.srcMem_cases {s t : State} {m : Move} (h : Effect s m t) :
    t.srcMem = s.srcMem ∨ ∃ (a : Half) (b : Byte), t.srcMem = writeByte s.srcMem a.toNat b := by
  by_cases hm : ∃ a b, m = .sourcePut a b
  · obtain ⟨a, b, rfl⟩ := hm
    cases h with
    | keeps => exact .inl rfl
    | puts => exact .inr ⟨a, b, rfl⟩
  · exact .inl (h.srcMem_eq fun a b hab => hm ⟨a, b, hab⟩)

theorem Effect.memoryInv {s t : State} {m : Move} (h : Effect s m t) (hs : MemoryInv s) : MemoryInv t := by
  refine ⟨?source, ?nvm⟩
  case source =>
    obtain e | ⟨a, b, e⟩ := h.srcMem_cases <;> rw [e]
    · exact hs.1
    · exact writeByte_wf b hs.1 a.isLt
  case nvm =>
    obtain ⟨e, -⟩ | ⟨off, b, e, -⟩ := h.nvm_cases <;> rw [e]
    · exact hs.2
    · exact writeByte_wf b hs.2 off.isLt

/-- A write is the last one to its own offset, and to no other (R62). -/
theorem Effect.lastWriteInv {s t : State} {m : Move} (h : Effect s m t) (hs : LastWriteInv s) : LastWriteInv t := by
  intro x
  obtain ⟨e, elog⟩ | ⟨off, b, e, elog⟩ := h.nvm_cases <;> rw [e, elog]
  · exact hs x
  · by_cases hx : off = x
    · subst hx
      simp
    · rw [readByte_writeByte_other _ b (BitVec.toNat_ne_iff_ne.2 (Ne.symm hx)), hs x]
      simp [hx]

/-! ## The whole invariant -/

/-- The invariant does not read the schedule. -/
theorem inv_moves {s : State} (h : Inv s) (ms : List Move) : Inv { s with moves := ms } :=
  ⟨h.capture, h.ready, h.storage, h.port, h.inReset, h.memory, h.lastWrite⟩

/-- Every effect keeps every clause. -/
theorem Effect.inv {s t : State} {m : Move} (h : Effect s m t) (hs : Inv s) : Inv t where
  capture := h.captureInv hs.capture
  ready := h.readyInv hs.capture hs.ready
  storage := h.storageInv hs.storage
  port := h.portInv hs.port
  inReset := h.resetInv hs.inReset
  memory := h.memoryInv hs.memory
  lastWrite := h.lastWriteInv hs.lastWrite

/-- Settles O54: a step is an effect. -/
theorem everyStepKeepsTheInvariant : Obligations.EveryStepKeepsTheInvariant := fun _ _ hs hstep =>
  (step_effect hstep).inv (inv_moves hs _)

/-- Settles O53: every clause reads registers that reset has set, or empty spaces. -/
theorem resetStateMeetsTheInvariant : Obligations.ResetStateMeetsTheInvariant := by
  have hall (p : Params) (u : Unspecified) : Inv (State.resetWith p u) ∧ TransferInv (State.resetWith p u) :=
    ⟨{ capture := captureInv_afterReset p u
       ready := readyInv_afterReset p u
       storage := storageInv_of_free rfl rfl
       port := portInv_of_none rfl
       inReset := resetInv_of_running rfl
       memory := ⟨⟨.nil, nofun⟩, .nil, nofun⟩
       lastWrite := fun _ => rfl }, transferInv_of_free rfl⟩
  exact ⟨hall, hall _ _⟩

/-! ## The end of a run (44_host.md R225) -/

/-- With the timer stopped, no CGET pending and no transfer in flight, the events and the sequencer's turn change
nothing: in no state that meets the invariant is a comparator edge then awaited. -/
theorem takeMove_of_over {s : State} {m : Move} (hinv : Inv s) (hfree : s.cap.gpend = false)
    (hstopped : s.cap.tdiv = 0) (hrie : s.asw.rie = false)
    (hm : m ∈ [Move.cmp, Move.tick, Move.srdy, Move.sequencer]) : takeMove m s = .next s := by
  have hended : s.cap.cstate ≠ .sampling := fun hs => hinv.capture.timer.2 hs hstopped
  have hkeeps {f : State → State} (hf : f s = s) : unlessReset f s = s := by
    rw [unlessReset, hf, ite_self]
  simp only [List.mem_cons, List.not_mem_nil, or_false] at hm
  obtain rfl | rfl | rfl | rfl := hm
  · exact congrArg _ (hkeeps (handleCmp_of_ignored (.inr hended)))
  · exact congrArg _ (hkeeps (handleTick_of_stopped hstopped))
  · exact congrArg _ (hkeeps (handleSrdy_of_disabled (.inl hrie)))
  · exact congrArg _ (sequencerTurn_of_disabled (.inl hfree))

/-- Settles O56: no event has anything to do, and a schedule without words stays without words. -/
theorem endOfRunIsFinal : Obligations.EndOfRunIsFinal := by
  intro s hinv hover
  obtain ⟨hwords, hheld, hfree, hstopped, hrie⟩ := (runOver_iff s).1 hover
  refine ⟨fun hnil => ?empty, fun m rest hmoves hm => ⟨?step, ?stays⟩⟩
  case empty => rw [step_nil hnil, sequencerTurn_of_disabled (.inl hfree)]
  case step => exact (step_cons hmoves).trans (takeMove_of_over (inv_moves hinv rest) hfree hstopped hrie hm)
  case stays =>
    exact (runOver_iff _).2
      ⟨fun w hw => hwords w (hmoves ▸ List.mem_cons_of_mem _ hw), hheld, hfree, hstopped, hrie⟩

end Sys2Proof.Proofs
end
